-- ==== Sys2Proof/Config.lean ====
section
/-! DEFINITION. What the implementation fixes and what the spec leaves free.
Every size of this machine is fixed by the spec (R4), so the one thing here is the free value. -/

namespace Sys2Proof

/-- The Auxiliary-Carry draw `AcDraw()` of R101: the bit of the n-th draw, under no law.
It has no body, so a claim that is proved holds whatever every draw returns; `State.draws` counts
the draws, so that two executions read two different bits (R4, R101, decision D7; log entry 3). -/
opaque Config.acDraw : Nat → Bool

end Sys2Proof
end

