-- ==== Sys2Proof/Word.lean ====
section
/-! DEFINITION. The two widths of the machine (R4): a byte and a 16-bit word. -/

namespace Sys2Proof

/-- An 8-bit value: a register, a memory cell, an opcode, an immediate byte (R4, R5). -/
abbrev Byte := BitVec 8

/-- A 16-bit value: the program counter, the stack pointer, a register pair, an address (R4, R5). -/
abbrev Word := BitVec 16

end Sys2Proof
end

