-- ==== Sys2Proof/Syntax.lean ====
section
/-! DEFINITION. The instructions: one constructor for each mnemonic of the opcode table (R55), and
one for the table's undefined byte values (R56). -/

namespace Sys2Proof

/-- The seven 8-bit registers (R10). Selector value 6 names none of them (R11). -/
inductive Reg8 where
  | b | c | d | e | h | l | a
  deriving DecidableEq, Repr

/-- What a 3-bit selector names (R52): a register, or the memory byte at the address in HL
(the sum type that R11 asks for). -/
inductive Operand where
  | reg (r : Reg8)
  | mem
  deriving DecidableEq, Repr

/-- The 2-bit pair selector in the LXI, DAD and INX sense (R53): the fourth value is SP. -/
inductive Pair where
  | bc | de | hl | sp
  deriving DecidableEq, Repr

/-- The 2-bit pair selector in the PUSH and POP sense (R53): the fourth value is PSW. -/
inductive StackPair where
  | bc | de | hl | psw
  deriving DecidableEq, Repr

/-- The one-bit pair field of LDAX (R53). -/
inductive IndexPair where
  | bc | de
  deriving DecidableEq, Repr

/-- An instruction with its operands (R55). An immediate is carried at the width the encoding gives it
(R54). -/
inductive Instr where
  -- Data movement (R85 to R91)
  | mov (dst src : Operand)
  | mvi (dst : Operand) (d8 : Byte)
  | lxi (rp : Pair) (d16 : Word)
  | lda (a16 : Word)
  | sta (a16 : Word)
  | ldax (rp : IndexPair)
  | xchg
  -- Arithmetic and logical (R102 to R116)
  | adi (d8 : Byte)
  | ani (d8 : Byte)
  | cpi (d8 : Byte)
  | add (src : Operand)
  | dad (rp : Pair)
  | inr (dst : Operand)
  | dcr (dst : Operand)
  | inx (rp : Pair)
  | ana (src : Operand)
  | xra (src : Operand)
  | rlc
  | rrc
  | cma
  | stc
  | cmc
  -- Stack, control transfer, I/O stubs, interrupt enable, halt (R130 to R140)
  | push (rp : StackPair)
  | pop (rp : StackPair)
  | jmp (a16 : Word)
  | jnz (a16 : Word)
  | call (a16 : Word)
  | ret
  | outPort (port : Byte)
  | inPort (port : Byte)
  | ei
  | di
  | hlt
  /-- A byte value that selects no instruction (R56, the value `Undefined` of `Decode` in R72). -/
  | undefined (op : Byte)
  deriving DecidableEq, Repr

end Sys2Proof
end

