-- ==== Sys2Proof/WellFormed.lean ====
section
/-! DEFINITION. Which terms of `Instr` stand for an instruction of the machine. -/

namespace Sys2Proof

/-- The 103 undefined byte values, group by group as R56 lists them. -/
def undefinedOpcodes : List Byte :=
  [0x00, 0x02, 0x08, 0x0B, 0x10, 0x12, 0x17, 0x18, 0x1B, 0x1F, 0x20, 0x22, 0x27, 0x28, 0x2A, 0x2B,
    0x30, 0x38, 0x3B]
  ++ [0x88, 0x89, 0x8A, 0x8B, 0x8C, 0x8D, 0x8E, 0x8F]
  ++ [0x90, 0x91, 0x92, 0x93, 0x94, 0x95, 0x96, 0x97, 0x98, 0x99, 0x9A, 0x9B, 0x9C, 0x9D, 0x9E, 0x9F]
  ++ [0xB0, 0xB1, 0xB2, 0xB3, 0xB4, 0xB5, 0xB6, 0xB7, 0xB8, 0xB9, 0xBA, 0xBB, 0xBC, 0xBD, 0xBE, 0xBF]
  ++ [0xC0, 0xC4, 0xC7, 0xC8, 0xCA, 0xCB, 0xCC, 0xCE, 0xCF]
  ++ [0xD0, 0xD2, 0xD4, 0xD6, 0xD7, 0xD8, 0xD9, 0xDA, 0xDC, 0xDD, 0xDE, 0xDF]
  ++ [0xE0, 0xE2, 0xE3, 0xE4, 0xE7, 0xE8, 0xE9, 0xEA, 0xEC, 0xED, 0xEE, 0xEF]
  ++ [0xF0, 0xF2, 0xF4, 0xF6, 0xF7, 0xF8, 0xF9, 0xFA, 0xFC, 0xFD, 0xFF]

/-- An instruction the encoding can express. There is no MOV with both selectors 6, since byte 0x76 is
HLT (R57), and `undefined` carries only a byte value that R56 lists. -/
def Instr.wellFormed : Instr → Bool
  | .mov dst src => !(dst == .mem && src == .mem)
  | .undefined op => undefinedOpcodes.contains op
  | .mvi _ _ | .lxi _ _ | .lda _ | .sta _ | .ldax _ | .xchg => true
  | .adi _ | .ani _ | .cpi _ | .add _ | .dad _ | .inr _ | .dcr _ | .inx _ | .ana _ | .xra _ => true
  | .rlc | .rrc | .cma | .stc | .cmc => true
  | .push _ | .pop _ | .jmp _ | .jnz _ | .call _ | .ret => true
  | .outPort _ | .inPort _ | .ei | .di | .hlt => true

end Sys2Proof
end

