-- ==== Sys2Proof/Decode.lean ====
section
/-! DEFINITION. From bytes to an instruction (R50 to R58, R72) and back. The decoder is a table of
rows, one for each mnemonic of R55; the encoder below it is written from the formats of R51. -/

namespace Sys2Proof

/-! ### Byte order and bit fields -/

/-- `hi ++ lo` of R5: the 16-bit value hi·256 + lo. -/
def wordOf (hi lo : Byte) : Word := hi ++ lo

/-- Bits 15..8 of a 16-bit value. -/
def hiByte (w : Word) : Byte := w.extractLsb' 8 8

/-- Bits 7..0 of a 16-bit value. -/
def loByte (w : Word) : Byte := w.extractLsb' 0 8

/-- The destination selector `ddd` = op[5:3] (R51). -/
def dddOf (op : Byte) : BitVec 3 := op.extractLsb' 3 3

/-- The source selector `sss` = op[2:0] (R51). -/
def sssOf (op : Byte) : BitVec 3 := op.extractLsb' 0 3

/-- The pair selector `rr` = op[5:4] (R51). -/
def rrOf (op : Byte) : BitVec 2 := op.extractLsb' 4 2

/-! ### Selectors -/

/-- The 3-bit selector table of R52. -/
def Operand.ofSel (sel : BitVec 3) : Operand :=
  match sel with
  | 0 => .reg .b
  | 1 => .reg .c
  | 2 => .reg .d
  | 3 => .reg .e
  | 4 => .reg .h
  | 5 => .reg .l
  | 6 => .mem
  | 7 => .reg .a

/-- The 3-bit selector of an operand (R52). -/
def Operand.sel : Operand → BitVec 3
  | .reg .b => 0
  | .reg .c => 1
  | .reg .d => 2
  | .reg .e => 3
  | .reg .h => 4
  | .reg .l => 5
  | .mem => 6
  | .reg .a => 7

/-- The pair selector table of R53 for LXI, DAD and INX. -/
def Pair.ofSel (sel : BitVec 2) : Pair :=
  match sel with
  | 0 => .bc
  | 1 => .de
  | 2 => .hl
  | 3 => .sp

/-- The 2-bit selector of a pair of LXI, DAD and INX (R53). -/
def Pair.sel : Pair → BitVec 2
  | .bc => 0
  | .de => 1
  | .hl => 2
  | .sp => 3

/-- The pair selector table of R53 for PUSH and POP. -/
def StackPair.ofSel (sel : BitVec 2) : StackPair :=
  match sel with
  | 0 => .bc
  | 1 => .de
  | 2 => .hl
  | 3 => .psw

/-- The 2-bit selector of a pair of PUSH and POP (R53). -/
def StackPair.sel : StackPair → BitVec 2
  | .bc => 0
  | .de => 1
  | .hl => 2
  | .psw => 3

/-- The one-bit field of LDAX at bit 4 (R53): 0 = BC, 1 = DE. -/
def IndexPair.ofSel (bit : Bool) : IndexPair := if bit then .de else .bc

/-- The field of LDAX for a pair (R53). -/
def IndexPair.sel : IndexPair → BitVec 1
  | .bc => 0
  | .de => 1

/-! ### The opcode map -/

/-- What follows the opcode byte (R50): nothing, an 8-bit immediate or port, or a 16-bit immediate or
address. -/
inductive ImmKind where
  | none | byte | word
  deriving DecidableEq, Repr

/-- How many bytes follow the opcode byte. -/
def ImmKind.size : ImmKind → Nat
  | .none => 0
  | .byte => 1
  | .word => 2

/-- One row of the opcode map: an opcode byte selects the row when `op & mask = pattern`. `build` makes
the instruction from the opcode byte and the operand bytes, given as one 16-bit value whose low byte is
the byte at `pc + 1` (R54). -/
structure OpRow where
  mask : Byte
  pattern : Byte
  imm : ImmKind
  build : Byte → Word → Instr

/-- The fixed bits of the row match the opcode byte (R55). -/
def OpRow.selects (r : OpRow) (op : Byte) : Bool := op &&& r.mask == r.pattern

/-- HLT stands before MOV, whose pattern it also matches (R57, R72). -/
def hltRow : OpRow := ⟨0b11111111, 0b01110110, .none, fun _ _ => .hlt⟩

/-- The data movement rows of R55. -/
def dataRows : List OpRow := [
  ⟨0b11000000, 0b01000000, .none, fun op _ => .mov (.ofSel (dddOf op)) (.ofSel (sssOf op))⟩,
  ⟨0b11000111, 0b00000110, .byte, fun op v => .mvi (.ofSel (dddOf op)) (loByte v)⟩,
  ⟨0b11001111, 0b00000001, .word, fun op v => .lxi (.ofSel (rrOf op)) v⟩,
  ⟨0b11111111, 0b00111010, .word, fun _ v => .lda v⟩,
  ⟨0b11111111, 0b00110010, .word, fun _ v => .sta v⟩,
  ⟨0b11101111, 0b00001010, .none, fun op _ => .ldax (.ofSel (op.getLsbD 4))⟩,
  ⟨0b11111111, 0b11101011, .none, fun _ _ => .xchg⟩]

/-- The arithmetic and logical rows of R55. -/
def arithRows : List OpRow := [
  ⟨0b11111111, 0b11000110, .byte, fun _ v => .adi (loByte v)⟩,
  ⟨0b11111111, 0b11100110, .byte, fun _ v => .ani (loByte v)⟩,
  ⟨0b11111111, 0b11111110, .byte, fun _ v => .cpi (loByte v)⟩,
  ⟨0b11111000, 0b10000000, .none, fun op _ => .add (.ofSel (sssOf op))⟩,
  ⟨0b11001111, 0b00001001, .none, fun op _ => .dad (.ofSel (rrOf op))⟩,
  ⟨0b11000111, 0b00000100, .none, fun op _ => .inr (.ofSel (dddOf op))⟩,
  ⟨0b11000111, 0b00000101, .none, fun op _ => .dcr (.ofSel (dddOf op))⟩,
  ⟨0b11001111, 0b00000011, .none, fun op _ => .inx (.ofSel (rrOf op))⟩,
  ⟨0b11111000, 0b10100000, .none, fun op _ => .ana (.ofSel (sssOf op))⟩,
  ⟨0b11111000, 0b10101000, .none, fun op _ => .xra (.ofSel (sssOf op))⟩,
  ⟨0b11111111, 0b00000111, .none, fun _ _ => .rlc⟩,
  ⟨0b11111111, 0b00001111, .none, fun _ _ => .rrc⟩,
  ⟨0b11111111, 0b00101111, .none, fun _ _ => .cma⟩,
  ⟨0b11111111, 0b00110111, .none, fun _ _ => .stc⟩,
  ⟨0b11111111, 0b00111111, .none, fun _ _ => .cmc⟩]

/-- The stack, control, I/O and interrupt-enable rows of R55. -/
def controlRows : List OpRow := [
  ⟨0b11001111, 0b11000101, .none, fun op _ => .push (.ofSel (rrOf op))⟩,
  ⟨0b11001111, 0b11000001, .none, fun op _ => .pop (.ofSel (rrOf op))⟩,
  ⟨0b11111111, 0b11000011, .word, fun _ v => .jmp v⟩,
  ⟨0b11111111, 0b11000010, .word, fun _ v => .jnz v⟩,
  ⟨0b11111111, 0b11001101, .word, fun _ v => .call v⟩,
  ⟨0b11111111, 0b11001001, .none, fun _ _ => .ret⟩,
  ⟨0b11111111, 0b11010011, .byte, fun _ v => .outPort (loByte v)⟩,
  ⟨0b11111111, 0b11011011, .byte, fun _ v => .inPort (loByte v)⟩,
  ⟨0b11111111, 0b11111011, .none, fun _ _ => .ei⟩,
  ⟨0b11111111, 0b11110011, .none, fun _ _ => .di⟩]

/-- The opcode map (R55), in the order of R72: HLT first, then the rows, which exclude one another. -/
def opTable : List OpRow := hltRow :: (dataRows ++ arithRows ++ controlRows)

/-- The row an opcode byte selects; none for an undefined byte value (R56). -/
def findRow (op : Byte) : Option OpRow := opTable.find? (·.selects op)

/-- What follows an opcode byte: a function of that byte alone (R50). Nothing is fetched after an
undefined byte (R151). -/
def immKindOf (op : Byte) : ImmKind :=
  match findRow op with
  | some r => r.imm
  | none => .none

/-- `Decode` of R72, total on the opcode byte, with the operand bytes filled in. -/
def assemble (op : Byte) (operand : Word) : Instr :=
  match findRow op with
  | some r => r.build op operand
  | none => .undefined op

/-- Why a list of bytes holds no whole instruction. -/
inductive DecodeError where
  /-- There is no opcode byte. -/
  | noOpcode
  /-- The opcode byte asks for more operand bytes than the list holds. -/
  | truncated (op : Byte)
  deriving DecidableEq, Repr

/-- Reads one instruction from the front of a list of bytes (lowest address first) and answers it with
the rest of the list. Total on any bytes (R72). A byte value of R56 is read as `undefined`. -/
def decode : List Byte → Except DecodeError (Instr × List Byte)
  | [] => .error .noOpcode
  | op :: rest =>
    match immKindOf op, rest with
    | .none, rest => .ok (assemble op 0, rest)
    | .byte, b1 :: rest => .ok (assemble op (wordOf 0 b1), rest)
    | .word, b1 :: b2 :: rest => .ok (assemble op (wordOf b2 b1), rest)
    | .byte, [] => .error (.truncated op)
    | .word, _ => .error (.truncated op)

/-! ### The encoder -/

/-- The bytes of an instruction, lowest address first, written from the formats of R51 and the patterns
of R55. -/
def encode : Instr → List Byte
  | .mov dst src => [0b01#2 ++ dst.sel ++ src.sel]
  | .mvi dst d8 => [0b00#2 ++ dst.sel ++ 0b110#3, d8]
  | .lxi rp d16 => [0b00#2 ++ rp.sel ++ 0b0001#4, loByte d16, hiByte d16]
  | .lda a16 => [0x3A, loByte a16, hiByte a16]
  | .sta a16 => [0x32, loByte a16, hiByte a16]
  | .ldax rp => [0b000#3 ++ rp.sel ++ 0b1010#4]
  | .xchg => [0xEB]
  | .adi d8 => [0xC6, d8]
  | .ani d8 => [0xE6, d8]
  | .cpi d8 => [0xFE, d8]
  | .add src => [0b10000#5 ++ src.sel]
  | .dad rp => [0b00#2 ++ rp.sel ++ 0b1001#4]
  | .inr dst => [0b00#2 ++ dst.sel ++ 0b100#3]
  | .dcr dst => [0b00#2 ++ dst.sel ++ 0b101#3]
  | .inx rp => [0b00#2 ++ rp.sel ++ 0b0011#4]
  | .ana src => [0b10100#5 ++ src.sel]
  | .xra src => [0b10101#5 ++ src.sel]
  | .rlc => [0x07]
  | .rrc => [0x0F]
  | .cma => [0x2F]
  | .stc => [0x37]
  | .cmc => [0x3F]
  | .push rp => [0b11#2 ++ rp.sel ++ 0b0101#4]
  | .pop rp => [0b11#2 ++ rp.sel ++ 0b0001#4]
  | .jmp a16 => [0xC3, loByte a16, hiByte a16]
  | .jnz a16 => [0xC2, loByte a16, hiByte a16]
  | .call a16 => [0xCD, loByte a16, hiByte a16]
  | .ret => [0xC9]
  | .outPort port => [0xD3, port]
  | .inPort port => [0xDB, port]
  | .ei => [0xFB]
  | .di => [0xF3]
  | .hlt => [0x76]
  | .undefined op => [op]

/-- The length in bytes (R50, column "len" of R55). -/
def Instr.length (i : Instr) : Nat := (encode i).length

/-! ### The numbering of the opcode table -/

/-- The three bytes of an instruction whose bits are `w`, numbered as the opcode table numbers them
(bit 0 is the least significant bit of the first byte), with every bit from `nbits` on 0. -/
def tableWordBytes (nbits w : Nat) : List Byte :=
  let v := w % 2 ^ nbits
  [BitVec.ofNat 8 v, BitVec.ofNat 8 (v / 2 ^ 8), BitVec.ofNat 8 (v / 2 ^ 16)]

/-- The instruction the decoder reads from a word of the opcode table. -/
def decodeTableWord (nbits w : Nat) : Option Instr :=
  match decode (tableWordBytes nbits w) with
  | .ok (i, _) => some i
  | .error _ => none

end Sys2Proof
end

