-- ==== Sys2Proof/Machine/State.lean ====
section
/-! DEFINITION. The state of the machine (R10 to R22) as plain data, the ways a run can stop, and the
state right after reset. -/

namespace Sys2Proof.Machine

/-- The two fault kinds of the machine (R150). The value is held by the fault latch `State.fault` (R20).
A step that raises one is a step to the state with the latch set (R154), not an outcome `fault` of
`step`; the host's `load` reports `outOfBounds` too (R171). Safe: the machine makes no move afterwards
(R77), so nothing can be proved about what follows a fault (log entries 1 and 2). -/
inductive Fault where
  /-- `UnimplementedOpcode(byte)` (R151): raised by `step` on a byte value of R56, which it carries. Safe. -/
  | unimplementedOpcode (op : Byte)
  /-- `OutOfBounds` (R152), without a value (decision D18): raised by every instruction whose implicit
  `pc` or `sp` arithmetic leaves 0..65535. Safe. -/
  | outOfBounds
  deriving DecidableEq, Repr

/-- Why the model declines. No instruction of this model does. -/
inductive Refusal where
  /-- An instruction without a meaning. Raised by an arm of `exec` only; no arm raises it now. Safe. -/
  | notModelled (mnemonic : String)
  /-- A `load` in any state but the one straight after reset (R172, decision D12). Raised by the host
  move `load`, never by a step. Safe: the state is unchanged. -/
  | loadNotAfterReset
  deriving DecidableEq, Repr

/-- The seven 8-bit registers (R10). There is no eighth (R11). -/
structure Regs where
  b : Byte
  c : Byte
  d : Byte
  e : Byte
  h : Byte
  l : Byte
  a : Byte
  deriving DecidableEq, Repr

/-- The five condition flags (R15). -/
structure Flags where
  s : Bool
  z : Bool
  p : Bool
  cy : Bool
  ac : Bool
  deriving DecidableEq, Repr

/-- The 65,536 bytes of memory (R18, R30): the bytes that are not 0x00, by rising address. -/
abbrev Memory := List Host.Cell

/-- All the state of the machine (the summary table of `10_state.md`). -/
structure State where
  /-- The register file (R10). -/
  regs : Regs
  /-- The program counter (R13). -/
  pc : Word
  /-- The stack pointer (R14). -/
  sp : Word
  /-- The condition flags (R15). -/
  flags : Flags
  /-- The interrupts-enabled flag (R17). -/
  inte : Bool
  /-- Memory (R18). -/
  mem : Memory
  /-- The terminal state HLT enters (R19). -/
  halted : Bool
  /-- The fault latch (R20). -/
  fault : Option Fault
  /-- How many Auxiliary-Carry draws have been made: the model's own field, which keeps the draws of
  R101 apart (log entry 3). No rule of the machine reads it. -/
  draws : Nat
  deriving DecidableEq, Repr

/-- The state right after reset: every element of R22 at its value. `draws` starts at 0
(DESIGN CHOICE, log entry 3). -/
def State.reset : State where
  regs := { b := 0, c := 0, d := 0, e := 0, h := 0, l := 0, a := 0 }
  pc := 0
  sp := 0
  flags := { s := false, z := false, p := false, cy := false, ac := false }
  inte := false
  mem := []
  halted := false
  fault := none
  draws := 0

end Sys2Proof.Machine
end

