-- ==== Sys2Proof/Machine/Ops.lean ====
section
/-! DEFINITION. The shared operations: memory, checked 16-bit arithmetic, taking a fault, and the
all-or-nothing end of a step. -/

namespace Sys2Proof.Machine

/-! ### Memory as a sparse list -/

/-- What an address that is not listed reads as: 0x00, the reset value of every byte (R18, R22). -/
def Memory.unlisted : Byte := 0x00

/-- The byte at an address. -/
def Memory.read : Memory → Nat → Byte
  | [], _ => Memory.unlisted
  | c :: m, addr => if c.1 = addr then c.2 else Memory.read m addr

/-- Lists a byte in front of a memory of higher addresses, unless it is the value an unlisted address
reads as. -/
def Memory.put (m : Memory) (addr : Nat) (v : Byte) : Memory :=
  if v = Memory.unlisted then m else (addr, v) :: m

/-- Stores a byte at an address, keeping the canonical form. -/
def Memory.write : Memory → Nat → Byte → Memory
  | [], addr, v => Memory.put [] addr v
  | c :: m, addr, v =>
    if addr < c.1 then Memory.put (c :: m) addr v
    else if addr = c.1 then Memory.put m addr v
    else c :: Memory.write m addr v

/-- Stores bytes from an address upwards. -/
def Memory.writeBytes : Memory → Nat → List Byte → Memory
  | m, _, [] => m
  | m, addr, v :: vs => Memory.writeBytes (Memory.write m addr v) (addr + 1) vs

/-- The canonical form: addresses strictly rising and below 65,536 (R30), no entry 0x00. -/
def Memory.wf : Memory → Bool
  | [] => true
  | c :: m =>
    decide (c.1 < 65536) && !(c.2 == Memory.unlisted) && m.all (fun c' => decide (c.1 < c'.1))
      && Memory.wf m

/-- The byte at a 16-bit address; such an address is always in range (R33). -/
def State.byteAt (s : State) (addr : Word) : Byte := s.mem.read addr.toNat

/-- Stores a byte at a 16-bit address; such an address is always in range (R33). -/
def State.setByte (s : State) (addr : Word) (v : Byte) : State :=
  { s with mem := s.mem.write addr.toNat v }

/-! ### Checked arithmetic and access at offsets -/

/-- 0 ≤ v ≤ 65535, the test of R7, R31 and R32 on an exact integer. -/
def inRange16 : Int → Bool
  | .ofNat n => decide (n ≤ 65535)
  | .negSucc _ => false

/-- `chk16` of R7: a value that `pc`, `sp` or an offset from them takes must be in 0..65535. -/
def chk16 (v : Int) : Except Fault Word :=
  if inRange16 v then .ok (BitVec.ofInt 16 v) else .error .outOfBounds

/-- `MemRead(addr, 1)` of R31, at an integer address. -/
def memRead (s : State) (addr : Int) : Except Fault Byte :=
  if inRange16 addr then .ok (s.mem.read addr.toNat) else .error .outOfBounds

/-- `MemWrite(addr, 1, v)` of R32, at an integer address. -/
def memWrite (s : State) (addr : Int) (v : Byte) : Except Fault State :=
  if inRange16 addr then .ok { s with mem := s.mem.write addr.toNat v }
  else .error .outOfBounds

/-! ### Taking a fault -/

/-- Fault entry (R154): the latch is set and nothing else changes; control goes nowhere. There is no
return from a fault (R155): only reset clears the latch. -/
def raiseFault (f : Fault) (s : State) : State := { s with fault := some f }

/-- The end of a step from `s`: all its effects, or, when a read or a check raised, none of them and
the fault entry (R41, R154). -/
def commit (s : State) (r : Except Fault State) : Host.Outcome State Fault Refusal :=
  match r with
  | .ok t => .next t
  | .error f => .next (raiseFault f s)

/-- The end of an instruction of `len` bytes that runs on to the next one: `pc <- chk16(pc + len)` (R73),
with the effects `t` if the check passes. `t` is the state with the instruction's own effects on `s`,
`pc` not yet moved. -/
def sequential (len : Nat) (s t : State) : Host.Outcome State Fault Refusal :=
  commit s do
    let npc ← chk16 (s.pc.toNat + len)
    return { t with pc := npc }

/-! ### The stack (R141) -/

/-- Pushes two bytes: the high one at `sp - 1`, the low one at `sp - 2`, in the order R130 and R134 list the
two writes (R41 (5)). The order of decision D11 leaves the same state (log entry 11). -/
def pushBytes (hi lo : Byte) (s : State) : Except Fault State := do
  let nsp ← chk16 (s.sp.toNat - 2)
  let s1 ← memWrite s (s.sp.toNat - 1) hi
  let s2 ← memWrite s1 (s.sp.toNat - 2) lo
  return { s2 with sp := nsp }

/-- Pops two bytes: the low one at `sp`, the high one at `sp + 1`. Answers the state with the new `sp`
and the 16-bit value, high byte first (R131, R135). -/
def popWord (s : State) : Except Fault (State × Word) := do
  let lo ← memRead s s.sp.toNat
  let hi ← memRead s (s.sp.toNat + 1)
  let nsp ← chk16 (s.sp.toNat + 2)
  return ({ s with sp := nsp }, wordOf hi lo)

end Sys2Proof.Machine
end

