-- ==== Sys2Proof/Machine/Operands.lean ====
section
/-! DEFINITION. How an instruction reaches its operands: registers, the memory-reference operand,
register pairs, immediates (R74 to R76). -/

namespace Sys2Proof.Machine

/-- Reads a register (R10). -/
def Regs.get (r : Regs) : Reg8 → Byte
  | .b => r.b
  | .c => r.c
  | .d => r.d
  | .e => r.e
  | .h => r.h
  | .l => r.l
  | .a => r.a

/-- Writes a register (R10). -/
def Regs.set (r : Regs) (n : Reg8) (v : Byte) : Regs :=
  match n with
  | .b => { r with b := v }
  | .c => { r with c := v }
  | .d => { r with d := v }
  | .e => { r with e := v }
  | .h => { r with h := v }
  | .l => { r with l := v }
  | .a => { r with a := v }

/-- The pair `B ++ C` (R12). -/
def State.bc (s : State) : Word := wordOf s.regs.b s.regs.c

/-- The pair `D ++ E` (R12). -/
def State.de (s : State) : Word := wordOf s.regs.d s.regs.e

/-- The pair `H ++ L` (R12), the address of the memory-reference operand. -/
def State.hl (s : State) : Word := wordOf s.regs.h s.regs.l

/-- Writes the accumulator. -/
def State.setA (s : State) (v : Byte) : State := { s with regs := s.regs.set .a v }

/-- `RdOp` of R74. The memory form reads the byte at HL, an address that is always in range. -/
def rdOp (o : Operand) (s : State) : Byte :=
  match o with
  | .reg r => s.regs.get r
  | .mem => s.byteAt s.hl

/-- `WrOp` of R74. The memory form writes the byte at HL, an address that is always in range. -/
def wrOp (o : Operand) (v : Byte) (s : State) : State :=
  match o with
  | .reg r => { s with regs := s.regs.set r v }
  | .mem => s.setByte s.hl v

/-- `RdPair` of R75. -/
def rdPair (k : Pair) (s : State) : Word :=
  match k with
  | .bc => s.bc
  | .de => s.de
  | .hl => s.hl
  | .sp => s.sp

/-- `WrPair` of R75: the high byte goes to the first-named register. -/
def wrPair (k : Pair) (v : Word) (s : State) : State :=
  match k with
  | .bc => { s with regs := { s.regs with b := hiByte v, c := loByte v } }
  | .de => { s with regs := { s.regs with d := hiByte v, e := loByte v } }
  | .hl => { s with regs := { s.regs with h := hiByte v, l := loByte v } }
  | .sp => { s with sp := v }

/-- The address LDAX reads (R90). -/
def rdIndexPair (k : IndexPair) (s : State) : Word :=
  match k with
  | .bc => s.bc
  | .de => s.de

/-- `imm8()` of R76: the byte after the opcode. -/
def imm8 (s : State) : Except Fault Byte := memRead s (s.pc.toNat + 1)

/-- `imm16()` of R76: the two bytes after the opcode, low byte first. -/
def imm16 (s : State) : Except Fault Word := do
  let lo ← memRead s (s.pc.toNat + 1)
  let hi ← memRead s (s.pc.toNat + 2)
  return wordOf hi lo

end Sys2Proof.Machine
end

