-- ==== Sys2Proof/Machine/Flags.lean ====
section
/-! DEFINITION. The flag computations (R100, R101), the 8-bit results that come with them, and the
flags byte of the PSW (R16). -/

namespace Sys2Proof.Machine

/-- Parity: the number of set bits of the byte is even (R100). -/
def evenParity (r : Byte) : Bool :=
  ((r.getLsbD 7).toNat + (r.getLsbD 6).toNat + (r.getLsbD 5).toNat + (r.getLsbD 4).toNat
    + (r.getLsbD 3).toNat + (r.getLsbD 2).toNat + (r.getLsbD 1).toNat + (r.getLsbD 0).toNat) % 2 == 0

/-- `SetZSP(r)` of R100: Zero, Sign and Parity from a result byte; `cy` and `ac` are not touched. -/
def Flags.setZSP (f : Flags) (r : Byte) : Flags :=
  { f with z := r == 0, s := r.getLsbD 7, p := evenParity r }

/-- `SetZSP(r)` on the state's flags (R100). -/
def setZSP (r : Byte) (s : State) : State := { s with flags := s.flags.setZSP r }

/-- `cy <- v`. -/
def setCarry (v : Bool) (s : State) : State := { s with flags := { s.flags with cy := v } }

/-- `ac <- AcDraw()` of R101: a fresh free bit. -/
def drawAc (s : State) : State :=
  { s with flags := { s.flags with ac := Config.acDraw s.draws }, draws := s.draws + 1 }

/-- The flag end of ADI, ANI, CPI, ADD, ANA and XRA: `cy`, then `SetZSP(r)`, then the draw. -/
def aluFlags (r : Byte) (cy : Bool) (s : State) : State := drawAc (setZSP r (setCarry cy s))

/-- ADI and ADD (R102, R105): the sum is formed exactly, the accumulator takes it mod 256 and Carry says
whether it reached 256. -/
def addToA (d : Byte) (s : State) : State :=
  let t := s.regs.a.toNat + d.toNat
  let r := BitVec.ofNat 8 t
  aluFlags r (decide (t ≥ 256)) (s.setA r)

/-- ANI and ANA (R103, R110): Carry is forced to 0. -/
def andToA (d : Byte) (s : State) : State :=
  let r := s.regs.a &&& d
  aluFlags r false (s.setA r)

/-- XRA (R111): Carry is forced to 0. -/
def xorToA (d : Byte) (s : State) : State :=
  let r := s.regs.a ^^^ d
  aluFlags r false (s.setA r)

/-- CPI (R104): the flags of the difference mod 256, Carry as the borrow; the accumulator is not
written. -/
def compareA (d : Byte) (s : State) : State :=
  let r := BitVec.ofInt 8 ((s.regs.a.toNat : Int) - d.toNat)
  aluFlags r (decide (d.toNat > s.regs.a.toNat)) s

/-- INR and DCR (R107, R108): the operand changes by `delta` mod 256; `cy` is not written. -/
def stepOperand (delta : Int) (o : Operand) (s : State) : State :=
  let r := BitVec.ofInt 8 ((rdOp o s).toNat + delta)
  drawAc (setZSP r (wrOp o r s))

/-- The flags byte: `s ++ z ++ 0 ++ ac ++ 0 ++ p ++ 1 ++ cy` (R16). -/
def Flags.toByte (f : Flags) : Byte :=
  BitVec.ofBool f.s ++ BitVec.ofBool f.z ++ 0#1 ++ BitVec.ofBool f.ac ++ 0#1 ++ BitVec.ofBool f.p
    ++ 1#1 ++ BitVec.ofBool f.cy

/-- The flags a flags byte stands for; bits 5, 3 and 1 are ignored (R16). -/
def Flags.ofByte (b : Byte) : Flags :=
  { s := b.getLsbD 7, z := b.getLsbD 6, ac := b.getLsbD 4, p := b.getLsbD 2, cy := b.getLsbD 0 }

/-- The two bytes PUSH stores, high byte first; the PSW is `A ++ FlagsByte` (R12, R130). -/
def rdStackPair (k : StackPair) (s : State) : Byte × Byte :=
  match k with
  | .bc => (s.regs.b, s.regs.c)
  | .de => (s.regs.d, s.regs.e)
  | .hl => (s.regs.h, s.regs.l)
  | .psw => (s.regs.a, s.flags.toByte)

/-- Where POP puts the two bytes it reads (R131). -/
def wrStackPair (k : StackPair) (hi lo : Byte) (s : State) : State :=
  match k with
  | .bc => { s with regs := { s.regs with b := hi, c := lo } }
  | .de => { s with regs := { s.regs with d := hi, e := lo } }
  | .hl => { s with regs := { s.regs with h := hi, l := lo } }
  | .psw => { s with regs := { s.regs with a := hi }, flags := Flags.ofByte lo }

end Sys2Proof.Machine
end

