-- ==== Sys2Proof/Machine/Arithmetic.lean ====
section
/-! DEFINITION. The arithmetic and logical instructions (`42_arithmetic_logical.md`). Data arithmetic
wraps and never faults (R117); only the advance of `pc` is checked. -/

namespace Sys2Proof.Machine

/-- ADI d8 (R102). -/
def execAdi (d8 : Byte) (s : State) : Host.Outcome State Fault Refusal :=
  sequential 2 s (addToA d8 s)

/-- ANI d8 (R103). -/
def execAni (d8 : Byte) (s : State) : Host.Outcome State Fault Refusal :=
  sequential 2 s (andToA d8 s)

/-- CPI d8 (R104). -/
def execCpi (d8 : Byte) (s : State) : Host.Outcome State Fault Refusal :=
  sequential 2 s (compareA d8 s)

/-- ADD s (R105). -/
def execAdd (src : Operand) (s : State) : Host.Outcome State Fault Refusal :=
  sequential 1 s (addToA (rdOp src s) s)

/-- DAD rp (R106): the sum is formed exactly, HL takes it mod 65536 and Carry says whether it reached
65536. No other flag is written. -/
def execDad (rp : Pair) (s : State) : Host.Outcome State Fault Refusal :=
  let t := s.hl.toNat + (rdPair rp s).toNat
  sequential 1 s (setCarry (decide (t ≥ 65536)) (wrPair .hl (BitVec.ofNat 16 t) s))

/-- INR d (R107). -/
def execInr (dst : Operand) (s : State) : Host.Outcome State Fault Refusal :=
  sequential 1 s (stepOperand 1 dst s)

/-- DCR d (R108). -/
def execDcr (dst : Operand) (s : State) : Host.Outcome State Fault Refusal :=
  sequential 1 s (stepOperand (-1) dst s)

/-- INX rp (R109): no flag is written, and SP wraps too. -/
def execInx (rp : Pair) (s : State) : Host.Outcome State Fault Refusal :=
  sequential 1 s (wrPair rp (BitVec.ofNat 16 ((rdPair rp s).toNat + 1)) s)

/-- ANA s (R110). -/
def execAna (src : Operand) (s : State) : Host.Outcome State Fault Refusal :=
  sequential 1 s (andToA (rdOp src s) s)

/-- XRA s (R111). -/
def execXra (src : Operand) (s : State) : Host.Outcome State Fault Refusal :=
  sequential 1 s (xorToA (rdOp src s) s)

/-- RLC (R112): `A <- A[6:0] ++ A[7]` and `cy <- A[7]`. -/
def execRlc (s : State) : Host.Outcome State Fault Refusal :=
  let out := s.regs.a.getLsbD 7
  sequential 1 s (setCarry out (s.setA (s.regs.a.extractLsb' 0 7 ++ BitVec.ofBool out)))

/-- RRC (R113): `A <- A[0] ++ A[7:1]` and `cy <- A[0]`. -/
def execRrc (s : State) : Host.Outcome State Fault Refusal :=
  let out := s.regs.a.getLsbD 0
  sequential 1 s (setCarry out (s.setA (BitVec.ofBool out ++ s.regs.a.extractLsb' 1 7)))

/-- CMA (R114). -/
def execCma (s : State) : Host.Outcome State Fault Refusal :=
  sequential 1 s (s.setA (~~~s.regs.a))

/-- STC (R115). -/
def execStc (s : State) : Host.Outcome State Fault Refusal :=
  sequential 1 s (setCarry true s)

/-- CMC (R116). -/
def execCmc (s : State) : Host.Outcome State Fault Refusal :=
  sequential 1 s (setCarry (!s.flags.cy) s)

end Sys2Proof.Machine
end

