-- ==== Sys2Proof/Machine/Control.lean ====
section
/-! DEFINITION. Stack, control transfer, input/output stubs, interrupt enable and halt
(`43_stack_control.md`), and the undefined byte values (R56, R151). -/

namespace Sys2Proof.Machine

/-- PUSH rp (R130). -/
def execPush (rp : StackPair) (s : State) : Host.Outcome State Fault Refusal :=
  commit s do
    let npc ← chk16 (s.pc.toNat + 1)
    let t ← pushBytes (rdStackPair rp s).1 (rdStackPair rp s).2 s
    return { t with pc := npc }

/-- POP rp (R131). -/
def execPop (rp : StackPair) (s : State) : Host.Outcome State Fault Refusal :=
  commit s do
    let (t, v) ← popWord s
    let npc ← chk16 (s.pc.toNat + 1)
    return { wrStackPair rp (hiByte v) (loByte v) t with pc := npc }

/-- JMP a16 (R132): no sequential advance is formed; the last operand byte must exist (R33). -/
def execJmp (a16 : Word) (s : State) : Host.Outcome State Fault Refusal :=
  commit s do
    let _ ← chk16 (s.pc.toNat + 2)
    return { s with pc := a16 }

/-- JNZ a16 (R133): both operand bytes are read, taken or not. -/
def execJnz (a16 : Word) (s : State) : Host.Outcome State Fault Refusal :=
  commit s do
    let _ ← chk16 (s.pc.toNat + 2)
    if s.flags.z then
      let npc ← chk16 (s.pc.toNat + 3)
      return { s with pc := npc }
    else
      return { s with pc := a16 }

/-- CALL a16 (R134). -/
def execCall (a16 : Word) (s : State) : Host.Outcome State Fault Refusal :=
  commit s do
    let ra ← chk16 (s.pc.toNat + 3)
    let t ← pushBytes (hiByte ra) (loByte ra) s
    return { t with pc := a16 }

/-- RET (R135). -/
def execRet (s : State) : Host.Outcome State Fault Refusal :=
  commit s do
    let (t, v) ← popWord s
    return { t with pc := v }

/-- OUT port (R136): a stub, the port is ignored. -/
def execOut (_port : Byte) (s : State) : Host.Outcome State Fault Refusal :=
  sequential 2 s s

/-- IN port (R137): a stub, the port is ignored and A is not written. -/
def execIn (_port : Byte) (s : State) : Host.Outcome State Fault Refusal :=
  sequential 2 s s

/-- EI (R138). -/
def execEi (s : State) : Host.Outcome State Fault Refusal :=
  sequential 1 s { s with inte := true }

/-- DI (R139). -/
def execDi (s : State) : Host.Outcome State Fault Refusal :=
  sequential 1 s { s with inte := false }

/-- HLT (R140). -/
def execHlt (s : State) : Host.Outcome State Fault Refusal :=
  sequential 1 s { s with halted := true }

/-- An undefined byte value: the fault `UnimplementedOpcode(byte)` is taken (R56, R151, R154). -/
def execUndefined (op : Byte) (s : State) : Host.Outcome State Fault Refusal :=
  commit s (.error (.unimplementedOpcode op))

end Sys2Proof.Machine
end

