-- ==== Sys2Proof/Machine/DataMovement.lean ====
section
/-! DEFINITION. The data movement instructions (`41_data_movement.md`). None writes a flag. -/

namespace Sys2Proof.Machine

/-- MOV d,s (R85). -/
def execMov (dst src : Operand) (s : State) : Host.Outcome State Fault Refusal :=
  sequential 1 s (wrOp dst (rdOp src s) s)

/-- MVI d,d8 (R86). -/
def execMvi (dst : Operand) (d8 : Byte) (s : State) : Host.Outcome State Fault Refusal :=
  sequential 2 s (wrOp dst d8 s)

/-- LXI rp,d16 (R87). -/
def execLxi (rp : Pair) (d16 : Word) (s : State) : Host.Outcome State Fault Refusal :=
  sequential 3 s (wrPair rp d16 s)

/-- LDA a16 (R88). -/
def execLda (a16 : Word) (s : State) : Host.Outcome State Fault Refusal :=
  sequential 3 s (s.setA (s.byteAt a16))

/-- STA a16 (R89). -/
def execSta (a16 : Word) (s : State) : Host.Outcome State Fault Refusal :=
  sequential 3 s (s.setByte a16 s.regs.a)

/-- LDAX rp (R90). -/
def execLdax (rp : IndexPair) (s : State) : Host.Outcome State Fault Refusal :=
  sequential 1 s (s.setA (s.byteAt (rdIndexPair rp s)))

/-- XCHG (R91): both halves are swapped at once. -/
def execXchg (s : State) : Host.Outcome State Fault Refusal :=
  sequential 1 s
    { s with regs :=
        { s.regs with h := s.regs.d, d := s.regs.h, l := s.regs.e, e := s.regs.l } }

end Sys2Proof.Machine
end

