-- ==== Sys2Proof/Machine/Dispatch.lean ====
section
/-! DEFINITION. `Execute` of R70: one arm for each constructor of `Instr`. -/

namespace Sys2Proof.Machine

def exec (i : Instr) (s : State) : Host.Outcome State Fault Refusal :=
  match i with
  | .mov dst src => Sys2Proof.Machine.execMov dst src s
  | .mvi dst d8 => Sys2Proof.Machine.execMvi dst d8 s
  | .lxi rp d16 => Sys2Proof.Machine.execLxi rp d16 s
  | .lda a16 => Sys2Proof.Machine.execLda a16 s
  | .sta a16 => Sys2Proof.Machine.execSta a16 s
  | .ldax rp => Sys2Proof.Machine.execLdax rp s
  | .xchg => Sys2Proof.Machine.execXchg s
  | .adi d8 => Sys2Proof.Machine.execAdi d8 s
  | .ani d8 => Sys2Proof.Machine.execAni d8 s
  | .cpi d8 => Sys2Proof.Machine.execCpi d8 s
  | .add src => Sys2Proof.Machine.execAdd src s
  | .dad rp => Sys2Proof.Machine.execDad rp s
  | .inr dst => Sys2Proof.Machine.execInr dst s
  | .dcr dst => Sys2Proof.Machine.execDcr dst s
  | .inx rp => Sys2Proof.Machine.execInx rp s
  | .ana src => Sys2Proof.Machine.execAna src s
  | .xra src => Sys2Proof.Machine.execXra src s
  | .rlc => Sys2Proof.Machine.execRlc s
  | .rrc => Sys2Proof.Machine.execRrc s
  | .cma => Sys2Proof.Machine.execCma s
  | .stc => Sys2Proof.Machine.execStc s
  | .cmc => Sys2Proof.Machine.execCmc s
  | .push rp => Sys2Proof.Machine.execPush rp s
  | .pop rp => Sys2Proof.Machine.execPop rp s
  | .jmp a16 => Sys2Proof.Machine.execJmp a16 s
  | .jnz a16 => Sys2Proof.Machine.execJnz a16 s
  | .call a16 => Sys2Proof.Machine.execCall a16 s
  | .ret => Sys2Proof.Machine.execRet s
  | .outPort port => Sys2Proof.Machine.execOut port s
  | .inPort port => Sys2Proof.Machine.execIn port s
  | .ei => Sys2Proof.Machine.execEi s
  | .di => Sys2Proof.Machine.execDi s
  | .hlt => Sys2Proof.Machine.execHlt s
  | .undefined op => Sys2Proof.Machine.execUndefined op s

end Sys2Proof.Machine
end

