-- ==== Sys2Proof/Machine/Step.lean ====
section
/-! DEFINITION. The one transition of the machine: fetch, decode, execute, commit (R70, R71, R77). -/

namespace Sys2Proof.Machine

/-- Fetches the instruction at `pc`: the opcode byte, then as many operand bytes as that byte asks for
(R50, R70, R76). The opcode fetch is always in range; an operand byte above 0xFFFF raises `OutOfBounds`
(R33). An undefined byte value fetches no operand (R151). -/
def fetch (s : State) : Except Fault Instr := do
  let op ← memRead s s.pc.toNat
  match immKindOf op with
  | .none => return assemble op 0
  | .byte => return assemble op (wordOf 0 (← imm8 s))
  | .word => return assemble op (← imm16 s)

/-- The machine can make a move: it is neither faulted nor halted (R70, R77). -/
def State.running (s : State) : Bool := s.fault.isNone && !s.halted

/-- `step` of R70. On a faulted or halted machine it changes nothing (R77, log entry 2). -/
def step (s : State) : Host.Outcome State Fault Refusal :=
  if s.running then
    match fetch s with
    | .ok i => exec i s
    | .error f => commit s (.error f)
  else .next s

/-- What a call of `step` reports to the host (the outcomes of R77; R154 (d)). -/
inductive StepReport where
  /-- The outcome Next. -/
  | next
  /-- The outcome Halted: this step executed HLT. -/
  | halted
  /-- The outcome Fault: this step raised the fault. -/
  | faulted (f : Fault)
  /-- The outcome No move on a faulted machine, which reports the latched fault. -/
  | noMoveFaulted (f : Fault)
  /-- The outcome No move on a halted machine. -/
  | noMoveHalted
  deriving DecidableEq, Repr

/-- The report of a step that went from `before` to `after` (R77). -/
def reportOf (before after : State) : StepReport :=
  match before.fault, before.halted, after.fault, after.halted with
  | some f, _, _, _ => .noMoveFaulted f
  | none, true, _, _ => .noMoveHalted
  | none, false, some f, _ => .faulted f
  | none, false, none, true => .halted
  | none, false, none, false => .next

/-- The state with the instruction of the opcode table's word `w` stored at `pc`, where `step` fetches
next, on a machine that can make a move (log entry 8). A byte that would lie above 0xFFFF is not
stored. -/
def State.withFetchWord (s : State) (nbits w : Nat) : State :=
  { s with
    mem := s.mem.writeBytes s.pc.toNat ((tableWordBytes nbits w).take (65536 - s.pc.toNat))
    halted := false
    fault := none }

end Sys2Proof.Machine
end

