-- ==== Sys2Proof/Machine/HostPort.lean ====
section
/-! DEFINITION. The host's moves: reset, load, step, inspect (R170 to R172, R176). -/

namespace Sys2Proof.Machine

/-- The machine and where the host stands in the lifecycle of R172. `loadable` says that the machine is
straight after reset: no `step` and no successful `load` since. It is the host's bookkeeping and no
state of the machine (log entry 9). -/
structure Session where
  machine : State
  loadable : Bool
  deriving DecidableEq, Repr

/-- A new Processor (R170, R172). -/
def Session.initial : Session := { machine := State.reset, loadable := true }

/-- What the host can do. -/
inductive HostMove where
  | reset
  | load (bytes : List Byte)
  | step
  | inspect
  deriving DecidableEq, Repr

/-- What the host may read between steps (R176). Its text format is not fixed by the spec. -/
structure Inspection where
  regs : Regs
  flags : Flags
  pc : Word
  sp : Word
  deriving DecidableEq, Repr

/-- What a move answers. -/
inductive HostReport where
  | done
  /-- A step was made, with its outcome (R77). -/
  | stepped (r : StepReport)
  /-- `load` failed with an error kind; the fault latch is not set (R171). -/
  | loadFailed (f : Fault)
  /-- The move is not one the machine gives the host in this state (R172). -/
  | refused (r : Refusal)
  | view (v : Inspection)
  deriving DecidableEq, Repr

/-- Reset (R170): every element at its reset value. The draw counter, the model's own field, goes on, so
that a draw after reset is a fresh one (R101, log entry 3). -/
def State.toReset (s : State) : State := { State.reset with draws := s.draws }

/-- The image in memory from address 0 (R171). -/
def State.loadImage (s : State) (bytes : List Byte) : State :=
  { s with mem := s.mem.writeBytes 0 bytes }

/-- The read-only view (R176). -/
def State.inspect (s : State) : Inspection :=
  { regs := s.regs, flags := s.flags, pc := s.pc, sp := s.sp }

/-- One move of the host. -/
def hostMove (m : HostMove) (h : Session) : Session × HostReport :=
  match m with
  | .reset => ({ machine := h.machine.toReset, loadable := true }, .done)
  | .load bytes =>
    if h.loadable then
      if bytes.length ≤ 65536 then
        ({ machine := h.machine.loadImage bytes, loadable := false }, .done)
      else (h, .loadFailed .outOfBounds)
    else (h, .refused .loadNotAfterReset)
  | .step =>
    match step h.machine with
    | .next t => ({ machine := t, loadable := false }, .stepped (reportOf h.machine t))
    | .fault f => ({ h with loadable := false }, .stepped (.faulted f))
    | .refused r => ({ h with loadable := false }, .refused r)
  | .inspect => (h, .view h.machine.inspect)

end Sys2Proof.Machine
end

