-- ==== Sys2Proof/Machine/MemoryPort.lean ====
section
/-! DEFINITION. The one byte-wide memory port and its multiplexing (R37, R40, R41): which accesses a step
that completes an instruction makes, in order, and which unit presents the address. A view of the
step, written from the table of R40 beside the meanings; the port holds no state. -/

namespace Sys2Proof.Machine

/-- The six sources of the address presented to the port (R40). -/
inductive PortSource where
  /-- `pc`: the opcode fetch. -/
  | pc
  /-- `pc + 1`, `pc + 2`: the operand fetch. -/
  | operand
  /-- `H ++ L`: the memory-reference operand. -/
  | hl
  /-- `B ++ C` or `D ++ E`: LDAX. -/
  | bcOrDe
  /-- The 16-bit immediate: LDA and STA. -/
  | immediate
  /-- `sp`, `sp + 1`, `sp - 1`, `sp - 2`: the stack. -/
  | stack
  deriving DecidableEq, Repr

/-- The direction of an access. -/
inductive PortDir where
  | read | write
  deriving DecidableEq, Repr

/-- One access of one byte. -/
structure PortAccess where
  source : PortSource
  dir : PortDir
  addr : Nat
  data : Byte
  deriving DecidableEq, Repr

/-- A read of the byte at an address. -/
def portRead (source : PortSource) (addr : Nat) (s : State) : PortAccess :=
  { source, dir := .read, addr, data := s.mem.read addr }

/-- A write of a byte at an address. -/
def portWrite (source : PortSource) (addr : Nat) (data : Byte) : PortAccess :=
  { source, dir := .write, addr, data }

/-- The read of a selector operand: none for a register. -/
def operandRead (o : Operand) (s : State) : List PortAccess :=
  match o with
  | .reg _ => []
  | .mem => [portRead .hl s.hl.toNat s]

/-- The write of a selector operand: none for a register. -/
def operandWrite (o : Operand) (v : Byte) (s : State) : List PortAccess :=
  match o with
  | .reg _ => []
  | .mem => [portWrite .hl s.hl.toNat v]

/-- The order of the two writes of a push, which the spec words in two ways. Both are modelled, and they
leave the same state (R41, log entry 11). -/
inductive PushOrder where
  /-- As the instruction's rule lists them (R41 (5)): R130 and R134 list the byte at `sp - 1` first. -/
  | listed
  /-- Lower address first, as decision D11 has it. -/
  | lowerFirst
  deriving DecidableEq, Repr

/-- The two writes of a push: the high byte at `sp - 1` and the low byte at `sp - 2`. -/
def pushWrites (o : PushOrder) (hi lo : Byte) (s : State) : List PortAccess :=
  let high := portWrite .stack (s.sp.toNat - 1) hi
  let low := portWrite .stack (s.sp.toNat - 2) lo
  match o with
  | .listed => [high, low]
  | .lowerFirst => [low, high]

/-- The two reads of a pop: the low byte at `sp`, then the high byte at `sp + 1`. -/
def popReads (s : State) : List PortAccess :=
  [portRead .stack s.sp.toNat s, portRead .stack (s.sp.toNat + 1) s]

/-- The fetch of the instruction at `pc`: the opcode byte, then the operand bytes in ascending order. -/
def fetchReads (i : Instr) (s : State) : List PortAccess :=
  portRead .pc s.pc.toNat s ::
    (List.range (i.length - 1)).map fun k => portRead .operand (s.pc.toNat + 1 + k) s

/-- The data and stack accesses of an instruction, reads before writes (R40, R41). -/
def dataAccesses (o : PushOrder) (i : Instr) (s : State) : List PortAccess :=
  match i with
  | .mov dst src => operandRead src s ++ operandWrite dst (rdOp src s) s
  | .mvi dst d8 => operandWrite dst d8 s
  | .lda a16 => [portRead .immediate a16.toNat s]
  | .sta a16 => [portWrite .immediate a16.toNat s.regs.a]
  | .ldax rp => [portRead .bcOrDe (rdIndexPair rp s).toNat s]
  | .add src | .ana src | .xra src => operandRead src s
  | .inr dst => operandRead dst s ++ operandWrite dst (rdOp dst s + 1) s
  | .dcr dst => operandRead dst s ++ operandWrite dst (rdOp dst s - 1) s
  | .push rp => pushWrites o (rdStackPair rp s).1 (rdStackPair rp s).2 s
  | .call _ => pushWrites o (hiByte (s.pc + 3)) (loByte (s.pc + 3)) s
  | .pop _ | .ret => popReads s
  | .lxi _ _ | .xchg | .adi _ | .ani _ | .cpi _ | .dad _ | .inx _ => []
  | .rlc | .rrc | .cma | .stc | .cmc | .jmp _ | .jnz _ => []
  | .outPort _ | .inPort _ | .ei | .di | .hlt | .undefined _ => []

/-- All the accesses of a step that completes `i`, in the order of R41, with the writes of a push in
either order. -/
def portAccesses (o : PushOrder) (i : Instr) (s : State) : List PortAccess :=
  fetchReads i s ++ dataAccesses o i s

/-- Memory after a list of accesses. A read changes nothing (R38). -/
def Memory.afterAccesses : Memory → List PortAccess → Memory
  | m, [] => m
  | m, a :: as =>
    match a.dir with
    | .read => Memory.afterAccesses m as
    | .write => Memory.afterAccesses (Memory.write m a.addr a.data) as

end Sys2Proof.Machine
end

