-- ==== Sys2Proof/Safety.lean ====
section
/-! DEFINITION. The terms claims are stated in: safe and terminal states, when an instruction is out of
bounds, what it may write, the invariant of a run, and states that differ by a draw only. -/

namespace Sys2Proof.Machine

/-- No fault is latched. A faulted state is never a successful end of a program (R77). -/
def State.safe (s : State) : Prop := s.fault = none

/-- The end of a run: the machine is faulted or halted, and only reset leaves it (R77, R78). -/
def State.terminal (s : State) : Prop := s.fault ≠ none ∨ s.halted = true

/-- A run that ended normally: in the halted state, without a fault (R78). -/
def State.endedNormally (s : State) : Prop := s.halted = true ∧ s.fault = none

/-- The instruction sets `pc` to a target instead of moving on to the next one (R73). -/
def transfersControl (i : Instr) (s : State) : Bool :=
  match i with
  | .jmp _ | .call _ | .ret => true
  | .jnz _ => !s.flags.z
  | .mov _ _ | .mvi _ _ | .lxi _ _ | .lda _ | .sta _ | .ldax _ | .xchg => false
  | .adi _ | .ani _ | .cpi _ | .add _ | .dad _ | .inr _ | .dcr _ | .inx _ | .ana _ | .xra _ => false
  | .rlc | .rrc | .cma | .stc | .cmc | .push _ | .pop _ => false
  | .outPort _ | .inPort _ | .ei | .di | .hlt | .undefined _ => false

/-- The instruction pushes two bytes (R141). -/
def pushes : Instr → Bool
  | .push _ | .call _ => true
  | .mov _ _ | .mvi _ _ | .lxi _ _ | .lda _ | .sta _ | .ldax _ | .xchg => false
  | .adi _ | .ani _ | .cpi _ | .add _ | .dad _ | .inr _ | .dcr _ | .inx _ | .ana _ | .xra _ => false
  | .rlc | .rrc | .cma | .stc | .cmc | .pop _ | .jmp _ | .jnz _ | .ret => false
  | .outPort _ | .inPort _ | .ei | .di | .hlt | .undefined _ => false

/-- The instruction pops two bytes (R141). -/
def pops : Instr → Bool
  | .pop _ | .ret => true
  | .mov _ _ | .mvi _ _ | .lxi _ _ | .lda _ | .sta _ | .ldax _ | .xchg => false
  | .adi _ | .ani _ | .cpi _ | .add _ | .dad _ | .inr _ | .dcr _ | .inx _ | .ana _ | .xra _ => false
  | .rlc | .rrc | .cma | .stc | .cmc | .push _ | .jmp _ | .jnz _ | .call _ => false
  | .outPort _ | .inPort _ | .ei | .di | .hlt | .undefined _ => false

/-- The instruction is an undefined byte value (R56). -/
def isUndefined : Instr → Bool
  | .undefined _ => true
  | .mov _ _ | .mvi _ _ | .lxi _ _ | .lda _ | .sta _ | .ldax _ | .xchg => false
  | .adi _ | .ani _ | .cpi _ | .add _ | .dad _ | .inr _ | .dcr _ | .inx _ | .ana _ | .xra _ => false
  | .rlc | .rrc | .cma | .stc | .cmc | .push _ | .pop _ | .jmp _ | .jnz _ | .call _ | .ret => false
  | .outPort _ | .inPort _ | .ei | .di | .hlt => false

/-- The table of R152, row by row: a place of the step where `OutOfBounds` is raised holds for the
instruction in the state. No place holds for an undefined byte value (R153). -/
def outOfBoundsPlace (i : Instr) (s : State) : Bool :=
  !isUndefined i &&
    -- the operand fetch at `pc + 1` and `pc + 2`
    (decide (s.pc.toNat + (i.length - 1) > 65535)
    -- the sequential advance
    || (!transfersControl i s && decide (s.pc.toNat + i.length > 65535))
    -- the return address of CALL
    || (match i with | .call _ => decide (s.pc.toNat ≥ 0xFFFD) | _ => false)
    -- the push addresses and the new `sp`
    || (pushes i && decide (s.sp.toNat < 2))
    -- the pop read at `sp + 1` and the new `sp`
    || (pops i && decide (s.sp.toNat ≥ 0xFFFE)))

/-- The registers an instruction may write (R10, R12). -/
def writtenRegs : Instr → List Reg8
  | .mov (.reg r) _ | .mvi (.reg r) _ | .inr (.reg r) | .dcr (.reg r) => [r]
  | .mov .mem _ | .mvi .mem _ | .inr .mem | .dcr .mem => []
  | .lxi .bc _ | .inx .bc | .pop .bc => [.b, .c]
  | .lxi .de _ | .inx .de | .pop .de => [.d, .e]
  | .lxi .hl _ | .inx .hl | .pop .hl | .dad _ => [.h, .l]
  | .lxi .sp _ | .inx .sp => []
  | .xchg => [.d, .e, .h, .l]
  | .lda _ | .ldax _ | .adi _ | .ani _ | .add _ | .ana _ | .xra _ | .rlc | .rrc | .cma => [.a]
  | .pop .psw => [.a]
  | .sta _ | .cpi _ | .stc | .cmc | .push _ | .jmp _ | .jnz _ | .call _ | .ret => []
  | .outPort _ | .inPort _ | .ei | .di | .hlt | .undefined _ => []

/-- The instruction may write `sp` (R14). -/
def writesSp : Instr → Bool
  | .lxi .sp _ | .inx .sp | .push _ | .pop _ | .call _ | .ret => true
  | .lxi .bc _ | .lxi .de _ | .lxi .hl _ | .inx .bc | .inx .de | .inx .hl => false
  | .mov _ _ | .mvi _ _ | .lda _ | .sta _ | .ldax _ | .xchg => false
  | .adi _ | .ani _ | .cpi _ | .add _ | .dad _ | .inr _ | .dcr _ | .ana _ | .xra _ => false
  | .rlc | .rrc | .cma | .stc | .cmc | .jmp _ | .jnz _ => false
  | .outPort _ | .inPort _ | .ei | .di | .hlt | .undefined _ => false

/-- The instruction writes `z`, `s` and `p` (R15). -/
def writesZsp : Instr → Bool
  | .adi _ | .ani _ | .cpi _ | .add _ | .ana _ | .xra _ | .inr _ | .dcr _ | .pop .psw => true
  | .pop .bc | .pop .de | .pop .hl => false
  | .mov _ _ | .mvi _ _ | .lxi _ _ | .lda _ | .sta _ | .ldax _ | .xchg | .dad _ | .inx _ => false
  | .rlc | .rrc | .cma | .stc | .cmc | .push _ | .jmp _ | .jnz _ | .call _ | .ret => false
  | .outPort _ | .inPort _ | .ei | .di | .hlt | .undefined _ => false

/-- The instruction writes `cy` (R15). -/
def writesCarry : Instr → Bool
  | .adi _ | .add _ | .cpi _ | .ani _ | .ana _ | .xra _ | .dad _ | .rlc | .rrc | .stc | .cmc => true
  | .pop .psw => true
  | .pop .bc | .pop .de | .pop .hl => false
  | .mov _ _ | .mvi _ _ | .lxi _ _ | .lda _ | .sta _ | .ldax _ | .xchg => false
  | .inr _ | .dcr _ | .inx _ | .cma | .push _ | .jmp _ | .jnz _ | .call _ | .ret => false
  | .outPort _ | .inPort _ | .ei | .di | .hlt | .undefined _ => false

/-- The addresses an instruction stores to, by the expressions its meaning uses: HL for the
memory-reference operand, the immediate for STA, the two bytes below `sp` for a push (R40). -/
def storedAddrs (i : Instr) (s : State) : List Nat :=
  match i with
  | .mov .mem _ | .mvi .mem _ | .inr .mem | .dcr .mem => [s.hl.toNat]
  | .sta a16 => [a16.toNat]
  | .push _ | .call _ => [s.sp.toNat - 1, s.sp.toNat - 2]
  | .mov (.reg _) _ | .mvi (.reg _) _ | .inr (.reg _) | .dcr (.reg _) => []
  | .lxi _ _ | .lda _ | .ldax _ | .xchg => []
  | .adi _ | .ani _ | .cpi _ | .add _ | .dad _ | .inx _ | .ana _ | .xra _ => []
  | .rlc | .rrc | .cma | .stc | .cmc | .pop _ | .jmp _ | .jnz _ | .ret => []
  | .outPort _ | .inPort _ | .ei | .di | .hlt | .undefined _ => []

/-- The invariant of a run. Memory keeps its canonical form. A halted machine has no fault latched, and
`pc` is one past the HLT that halted it (R140). A latched fault is explained by the state it was raised
in: `pc` holds the undefined byte (R151), or a place of R152 holds for the instruction at `pc` (R154), where the operand's value plays no part. -/
structure State.Inv (s : State) : Prop where
  memory : s.mem.wf = true
  halted : s.halted = true → s.fault = none ∧ s.pc ≠ 0 ∧ s.byteAt (s.pc - 1) = 0x76
  undefined : ∀ op, s.fault = some (.unimplementedOpcode op) →
    s.byteAt s.pc = op ∧ op ∈ undefinedOpcodes
  outOfBounds : s.fault = some .outOfBounds → outOfBoundsPlace (assemble (s.byteAt s.pc) 0) s = true

/-- The second state is the first but for `ac` and the draw counter. -/
def sameButAc (s t : State) : Prop :=
  t = { s with flags := { s.flags with ac := t.flags.ac }, draws := t.draws }

end Sys2Proof.Machine
end

