-- ==== Sys2Proof/Certificates/Slice0/Obligations.lean ====
section
/-! DEFINITION. The statements about the model, for the provers. Each names the rules it formalises and,
where a rule marks a point as the spec's own decision (`92_eei_decisions.md`), that decision.

Taking a fault is, in every statement, the step to the state with the latch set, as R77 and R154 say; that
the host's outcome is then `next` is log entry 1. -/

open Sys2Proof Sys2Proof.Machine

/-! ### Reset, load and the host's moves -/

/-- R22: after reset every element of state has its defined value. Those of `halted` and `fault` are the
spec's decisions D4 and D6. -/
def Obligations.ResetLeavesEveryElementZero : Prop :=
  State.reset.regs = ⟨0, 0, 0, 0, 0, 0, 0⟩ ∧ State.reset.pc = 0 ∧ State.reset.sp = 0 ∧
  State.reset.flags = ⟨false, false, false, false, false⟩ ∧ State.reset.inte = false ∧
  (∀ a : Nat, State.reset.mem.read a = 0) ∧ State.reset.halted = false ∧ State.reset.fault = none

/-- R170: reset may be applied in any state, halted and faulted ones included, and leaves the reset
state, ready for a load. That the draw counter goes on is the model's choice (log entry 3). -/
def Obligations.ResetFromAnyStateIsTheResetState : Prop :=
  ∀ h : Session, hostMove .reset h =
    ({ machine := { State.reset with draws := h.machine.draws }, loadable := true }, .done)

/-- R171: a load of at most 65,536 bytes straight after reset puts byte i at address i and changes nothing
else; a longer image fails with `OutOfBounds`, changes nothing, sets no latch and may be tried again (the
spec's decision D12). The canonical form is the model's own (log entry 10). -/
def Obligations.LoadPlacesTheImageFromAddressZero : Prop :=
  ∀ (h : Session) (bytes : List Byte), h.loadable = true → h.machine.mem.wf = true →
    (bytes.length ≤ 65536 →
      ∃ m : Memory,
        hostMove (.load bytes) h = ({ machine := { h.machine with mem := m }, loadable := false }, .done) ∧
        m.wf = true ∧
        (∀ (i : Nat) (hi : i < bytes.length), m.read i = bytes[i]) ∧
        (∀ a : Nat, bytes.length ≤ a → m.read a = h.machine.mem.read a)) ∧
    (65536 < bytes.length → hostMove (.load bytes) h = (h, .loadFailed .outOfBounds))

/-- R172: after a successful load or a step, a load is refused without effect until the next reset;
inspection changes nothing. -/
def Obligations.LoadIsRefusedOutsideTheResetState : Prop :=
  ∀ (h h' : Session) (m : HostMove) (r : HostReport) (bytes : List Byte), hostMove m h = (h', r) →
    (m = .step ∨ (∃ image, m = .load image) ∧ r = .done →
      h'.loadable = false) ∧
    (h.loadable = false → hostMove (.load bytes) h = (h, .refused .loadNotAfterReset)) ∧
    (h.loadable = false → m ≠ .reset → h'.loadable = false) ∧
    (m = .inspect → h' = h ∧ r = .view
      { regs := h.machine.regs, flags := h.machine.flags, pc := h.machine.pc, sp := h.machine.sp })

/-! ### Encoding -/

/-- Decoding the encoding of any well-formed instruction, with any bytes after it, gives the instruction
and those bytes: no operand bit is dropped. -/
def Obligations.DecodeOfEncodeIsTheInstruction : Prop :=
  ∀ (i : Instr) (rest : List Byte), i.wellFormed = true →
    decode (encode i ++ rest) = .ok (i, rest)

/-- What the decoder reads is well formed, and its encoding is exactly the bytes that were read. -/
def Obligations.EncodeOfDecodeIsTheBytes : Prop :=
  ∀ (bytes rest : List Byte) (i : Instr), decode bytes = .ok (i, rest) →
    i.wellFormed = true ∧ encode i ++ rest = bytes

/-- R56: the byte values that select no instruction are exactly the 103 listed ones. -/
def Obligations.UndefinedBytesAreTheListedOnes : Prop :=
  undefinedOpcodes.length = 103 ∧ undefinedOpcodes.Nodup ∧
  ∀ (op : Byte) (rest : List Byte),
    decode (op :: rest) = .ok (.undefined op, rest) ↔ op ∈ undefinedOpcodes

/-- R58: the six opcode bytes the source gives. -/
def Obligations.TheSourcesSixBytesDecode : Prop :=
  ∀ (x y : Byte) (rest : List Byte),
    decode (0x3E :: x :: rest) = .ok (.mvi (.reg .a) x, rest) ∧
    decode (0x06 :: x :: rest) = .ok (.mvi (.reg .b) x, rest) ∧
    decode (0x80 :: rest) = .ok (.add (.reg .b), rest) ∧
    decode (0x21 :: x :: y :: rest) = .ok (.lxi .hl (wordOf y x), rest) ∧
    decode (0x01 :: x :: y :: rest) = .ok (.lxi .bc (wordOf y x), rest) ∧
    decode (0xC5 :: rest) = .ok (.push .bc, rest)

/-- R52, R53: the selector tables. -/
def Obligations.SelectorsNameTheListedOperands : Prop :=
  (List.range 8).map (fun n => Operand.ofSel (BitVec.ofNat 3 n)) =
    [.reg .b, .reg .c, .reg .d, .reg .e, .reg .h, .reg .l, .mem, .reg .a] ∧
  (List.range 4).map (fun n => Pair.ofSel (BitVec.ofNat 2 n)) = [.bc, .de, .hl, .sp] ∧
  (List.range 4).map (fun n => StackPair.ofSel (BitVec.ofNat 2 n)) = [.bc, .de, .hl, .psw] ∧
  IndexPair.ofSel false = .bc ∧ IndexPair.ofSel true = .de

/-! ### The step -/

/-- R70: when the bytes at `pc` decode to an instruction, a step of a running machine is `exec` of it. -/
def Obligations.StepRunsTheDecodedInstruction : Prop :=
  ∀ (s : State) (n : Nat) (i : Instr) (rest : List Byte),
    s.fault = none → s.halted = false → s.pc.toNat + n ≤ 65536 →
    decode ((List.range n).map fun k => s.mem.read (s.pc.toNat + k)) = .ok (i, rest) →
    step s = exec i s

/-- R33, R76: when an operand byte of the instruction at `pc` would lie above 0xFFFF, the step takes
`OutOfBounds`. -/
def Obligations.StepWithAMissingOperandByteFaults : Prop :=
  ∀ s : State, s.fault = none → s.halted = false →
    65535 < s.pc.toNat + (immKindOf (s.byteAt s.pc)).size →
    step s = .next { s with fault := some .outOfBounds }

/-- R151, R154: an undefined byte value takes the fault `UnimplementedOpcode` with that byte, as an
instruction and as a step at any `pc`, the top of memory included; nothing else changes. -/
def Obligations.UndefinedByteTakesItsFault : Prop :=
  (∀ (op : Byte) (s : State),
    exec (.undefined op) s = .next { s with fault := some (.unimplementedOpcode op) }) ∧
  (∀ s : State, s.fault = none → s.halted = false → s.byteAt s.pc ∈ undefinedOpcodes →
    step s = .next { s with fault := some (.unimplementedOpcode (s.byteAt s.pc)) })

/-- R155: a machine with a latched fault never moves again, however often it is stepped, and reports that
fault each time; the same holds of a halted one (R77, the outcome No move). -/
def Obligations.TerminalMachineNeverMoves : Prop :=
  ∀ (s : State) (k : Nat), s.terminal →
    Sys2Proof.core.run k s = .next s ∧ step s = .next s ∧
    (∀ f, s.fault = some f → reportOf s s = .noMoveFaulted f) ∧
    (s.fault = none → reportOf s s = .noMoveHalted)

/-- R77: every call of `step` answers a state, and the outcome is Halted exactly when the machine was
running, the byte at `pc` is HLT's and the advance of `pc` does not fault. -/
def Obligations.StepAnswersAndHaltsExactlyOnHlt : Prop :=
  ∀ s : State, ∃ t, step s = .next t ∧
    (reportOf s t = .halted ↔
      s.fault = none ∧ s.halted = false ∧ s.byteAt s.pc = 0x76 ∧ s.pc ≠ 0xFFFF) ∧
    (s.fault = none → s.halted = false →
      (t.halted = true ↔ s.byteAt s.pc = 0x76 ∧ s.pc ≠ 0xFFFF))

/-- R154: a step that raises sets the latch, changes nothing else, and reports the fault (the spec's
decision D6). -/
def Obligations.FaultingStepChangesOnlyTheLatch : Prop :=
  ∀ (s t : State) (f : Fault), s.fault = none → step s = .next t → t.fault = some f →
    t = { s with fault := some f } ∧ reportOf s t = .faulted f

/-- R152: an instruction raises `OutOfBounds` exactly where the table of R152 says, and elsewhere it
completes with no fault of its own. -/
def Obligations.OutOfBoundsExactlyAtTheListedPlaces : Prop :=
  ∀ (i : Instr) (s : State), isUndefined i = false →
    (outOfBoundsPlace i s = true → exec i s = .next { s with fault := some .outOfBounds }) ∧
    (outOfBoundsPlace i s = false → ∃ t, exec i s = .next t ∧ t.fault = s.fault)

/-- R73: an instruction that completes without transferring control moves `pc` by exactly its length,
without a wrap. -/
def Obligations.SequentialAdvanceIsTheLength : Prop :=
  ∀ (i : Instr) (s t : State), isUndefined i = false → outOfBoundsPlace i s = false →
    transfersControl i s = false → exec i s = .next t →
    t.pc.toNat = s.pc.toNat + i.length

/-! ### Invariants of a run -/

/-- Every step keeps the invariant: memory canonical (the model's own form, log entry 10), a halted machine one past its HLT, a latched fault
explained by the state. -/
def Obligations.EveryStepKeepsTheInvariant : Prop :=
  ∀ s t : State, s.Inv → step s = .next t → t.Inv

/-- The invariant holds at reset. -/
def Obligations.TheInvariantHoldsAtReset : Prop := State.reset.Inv

/-- The free bit goes nowhere but into `ac` and, by PUSH PSW, into bit 4 of the byte stored at `sp - 2`
(R101): two machines that differ in `ac` and in the draws to come stay so, whatever the draws return. The counter is the
model's own (log entry 3). -/
def Obligations.DrawReachesOnlyAcAndThePushedPsw : Prop :=
  ∀ s t s' : State, s.mem.wf = true → sameButAc s t → step s = .next s' →
    ∃ t', step t = .next t' ∧
      (sameButAc s' t' ∨
        (s.byteAt s.pc = 0xF5 ∧ sameButAc s' { t' with mem := s'.mem } ∧
          (∀ a : Nat, a ≠ s.sp.toNat - 2 → t'.mem.read a = s'.mem.read a) ∧
          (∀ k : Nat, k ≠ 4 → (t'.mem.read (s.sp.toNat - 2)).getLsbD k =
            (s'.mem.read (s.sp.toNat - 2)).getLsbD k)))

/-! ### Whole-machine rules and frames -/

/-- R17: EI writes 1 and DI writes 0, no other instruction writes `inte`, and none reads it. -/
def Obligations.InteIsWrittenByEiAndDiAndReadByNothing : Prop :=
  ∀ (i : Instr) (s t : State), exec i s = .next t →
    (i ≠ .ei → i ≠ .di → t.inte = s.inte ∧
      ∀ b : Bool, exec i { s with inte := b } = .next { t with inte := b }) ∧
    (i = .ei → t.fault = s.fault → outOfBoundsPlace i s = false → t.inte = true) ∧
    (i = .di → t.fault = s.fault → outOfBoundsPlace i s = false → t.inte = false)

/-- The frame of the registers: an instruction leaves every register but its destinations, and `sp`
unless it is one of the six forms that write it (R10, R14). -/
def Obligations.RegistersOutsideTheDestinationAreKept : Prop :=
  ∀ (i : Instr) (s t : State), exec i s = .next t →
    (∀ r : Reg8, r ∉ writtenRegs i → t.regs.get r = s.regs.get r) ∧
    (writesSp i = false → t.sp = s.sp)

/-- R15: who writes which flag. The draw counter, the model's own field, moves only with the eight
instructions of R101 (log entry 3). -/
def Obligations.FlagsAreWrittenOnlyByTheListedInstructions : Prop :=
  ∀ (i : Instr) (s t : State), exec i s = .next t →
    (writesZsp i = false →
      t.flags.z = s.flags.z ∧ t.flags.s = s.flags.s ∧ t.flags.p = s.flags.p ∧
      t.flags.ac = s.flags.ac ∧ t.draws = s.draws) ∧
    (writesCarry i = false → t.flags.cy = s.flags.cy)

/-- The frame of memory: an instruction that stores nothing keeps memory as it is, and one that stores
keeps every byte outside the addresses its meaning stores to. -/
def Obligations.MemoryOutsideTheStoredBytesIsKept : Prop :=
  ∀ (i : Instr) (s t : State), s.mem.wf = true → exec i s = .next t →
    (∀ a : Nat, a ∉ storedAddrs i s → t.mem.read a = s.mem.read a) ∧
    (storedAddrs i s = [] → t.mem = s.mem)

/-- R19, R20: only HLT sets `halted`, and an instruction changes the latch only by taking a fault. -/
def Obligations.HaltedAndTheLatchChangeOnlyAsStated : Prop :=
  ∀ (i : Instr) (s t : State), exec i s = .next t →
    (i ≠ .hlt → t.halted = s.halted) ∧
    (t.fault ≠ s.fault → t.fault = some .outOfBounds ∧ outOfBoundsPlace i s = true ∨
      ∃ op, i = .undefined op ∧ t.fault = some (.unimplementedOpcode op))

/-! ### Memory and the port -/

/-- R31, R32: reads and writes of one byte at an integer address. That a write keeps the canonical form is
of the model's own representation (log entry 10). -/
def Obligations.MemoryAccessIsBoundsCheckedAndReadsBack : Prop :=
  ∀ (s : State) (a b : Int) (v : Byte), s.mem.wf = true →
    (0 ≤ a ∧ a ≤ 65535 →
      memRead s a = .ok (s.mem.read a.toNat) ∧
      ∃ t, memWrite s a v = .ok t ∧ t = { s with mem := t.mem } ∧ t.mem.wf = true ∧
        memRead t a = .ok v ∧ (b ≠ a → memRead t b = memRead s b)) ∧
    (a < 0 ∨ 65535 < a → memRead s a = .error .outOfBounds ∧ memWrite s a v = .error .outOfBounds)

/-- Equal memories are equal data: the canonical form, the model's own (log entry 10), is determined by
what every address reads as. -/
def Obligations.CanonicalMemoryIsDeterminedByItsReads : Prop :=
  ∀ m m' : Memory, m.wf = true → m'.wf = true → (∀ a : Nat, m.read a = m'.read a) → m = m'

/-- R40, R41: the accesses of an instruction that completes are in range, the reads come before the
writes and return the bytes of the state before the step, and the writes go to different addresses. It holds for both orders of a push's writes (log entry 11). -/
def Obligations.PortAccessesAreInRangeAndReadsComeFirst : Prop :=
  ∀ (o : PushOrder) (i : Instr) (s : State), i.wellFormed = true → isUndefined i = false →
    outOfBoundsPlace i s = false →
    (∀ x ∈ portAccesses o i s, x.addr ≤ 65535 ∧ (x.dir = .read → x.data = s.mem.read x.addr)) ∧
    (portAccesses o i s).Pairwise (fun x y => x.dir = .write → y.dir = .write ∧ y.addr ≠ x.addr)

/-- R40: the memory an instruction leaves is what the port's writes make of the memory before it; with
canonical memory it is so for both orders of a push's writes (log entries 10 and 11). -/
def Obligations.PortWritesAreTheWholeMemoryEffect : Prop :=
  ∀ (i : Instr) (s t : State), isUndefined i = false → outOfBoundsPlace i s = false →
    exec i s = .next t → t.mem = s.mem.afterAccesses (portAccesses .listed i s) ∧
      (s.mem.wf = true → ∀ o, t.mem = s.mem.afterAccesses (portAccesses o i s))

/-- R45: a store is seen by the very next fetch. An STA of 0x76 onto the byte after itself halts the
machine two steps later. -/
def Obligations.StoreIsSeenByTheNextFetch : Prop :=
  ∀ s : State, s.mem.wf = true → s.fault = none → s.halted = false → s.pc.toNat ≤ 0xFFFB →
    decode [s.mem.read s.pc.toNat, s.mem.read (s.pc.toNat + 1), s.mem.read (s.pc.toNat + 2)] =
      .ok (.sta (s.pc + 3), []) →
    s.regs.a = 0x76 →
    ∃ t, Sys2Proof.core.run 2 s = .next t ∧ t.halted = true ∧ t.fault = none ∧ t.pc = s.pc + 4

/-! ### Operands and flag logic -/

/-- R74: the selector operand reads and writes a register, or the byte at `H ++ L`. -/
def Obligations.SelectorOperandIsARegisterOrTheByteAtHl : Prop :=
  ∀ (s : State) (v : Byte),
    (∀ r : Reg8, rdOp (.reg r) s = s.regs.get r ∧
      (∃ regs, wrOp (.reg r) v s = { s with regs := regs } ∧
        regs.get r = v ∧ ∀ r', r' ≠ r → regs.get r' = s.regs.get r')) ∧
    rdOp .mem s = s.mem.read (s.regs.h.toNat * 256 + s.regs.l.toNat) ∧
    wrOp .mem v s = { s with mem := s.mem.write (s.regs.h.toNat * 256 + s.regs.l.toNat) v } ∧
    [s.regs.get .b, s.regs.get .c, s.regs.get .d, s.regs.get .e, s.regs.get .h, s.regs.get .l,
      s.regs.get .a] = [s.regs.b, s.regs.c, s.regs.d, s.regs.e, s.regs.h, s.regs.l, s.regs.a]

/-- R75: a pair is read high byte first and written back to the same two registers; writing a pair
leaves every other register alone. -/
def Obligations.PairIsItsTwoRegistersHighByteFirst : Prop :=
  ∀ (s : State) (v : Word),
    (rdPair .bc s).toNat = s.regs.b.toNat * 256 + s.regs.c.toNat ∧
    (rdPair .de s).toNat = s.regs.d.toNat * 256 + s.regs.e.toNat ∧
    (rdPair .hl s).toNat = s.regs.h.toNat * 256 + s.regs.l.toNat ∧
    rdPair .sp s = s.sp ∧
    (∀ k : Pair, rdPair k (wrPair k v s) = v ∧
      ∀ k' : Pair, k' ≠ k → rdPair k' (wrPair k v s) = rdPair k' s) ∧
    (∀ k : Pair, (wrPair k v s).regs.a = s.regs.a) ∧
    wrPair .sp v s = { s with sp := v }

/-- R100: the standard flag update on a result byte. -/
def Obligations.StandardFlagUpdateIsZeroSignParity : Prop :=
  ∀ (f : Flags) (r : Byte),
    ((f.setZSP r).z = true ↔ r = 0) ∧ ((f.setZSP r).s = true ↔ 128 ≤ r.toNat) ∧
    ((f.setZSP r).p = true ↔ (List.range 8).countP (fun k => r.getLsbD k) % 2 = 0) ∧
    (f.setZSP r).cy = f.cy ∧ (f.setZSP r).ac = f.ac

/-- R16: the flags byte, bit by bit, and what POP PSW takes from a byte. -/
def Obligations.FlagsByteHasTheStatedLayout : Prop :=
  (∀ f : Flags, (List.range 8).map (fun k => f.toByte.getLsbD (7 - k)) =
    [f.s, f.z, false, f.ac, false, f.p, true, f.cy]) ∧
  (∀ b : Byte, Flags.ofByte b =
    ⟨b.getLsbD 7, b.getLsbD 6, b.getLsbD 2, b.getLsbD 0, b.getLsbD 4⟩)

/-! ### Data movement -/

/-- R85. -/
def Obligations.MovCopiesOneByte : Prop :=
  ∀ (d src : Operand) (s : State), ¬(d = .mem ∧ src = .mem) →
    (∀ rest, decode ((0b01#2 ++ d.sel ++ src.sel) :: rest) = .ok (.mov d src, rest)) ∧
    (s.pc.toNat ≤ 0xFFFE →
      exec (.mov d src) s = .next { wrOp d (rdOp src s) s with pc := s.pc + 1 }) ∧
    (s.pc = 0xFFFF → exec (.mov d src) s = .next { s with fault := some .outOfBounds })

/-- R86. -/
def Obligations.MviStoresTheImmediate : Prop :=
  ∀ (d : Operand) (d8 : Byte) (s : State),
    (∀ rest, decode ((0b00#2 ++ d.sel ++ 0b110#3) :: d8 :: rest) = .ok (.mvi d d8, rest)) ∧
    (s.pc.toNat ≤ 0xFFFD → exec (.mvi d d8) s = .next { wrOp d d8 s with pc := s.pc + 2 }) ∧
    (0xFFFE ≤ s.pc.toNat → exec (.mvi d d8) s = .next { s with fault := some .outOfBounds })

/-- R87. -/
def Obligations.LxiLoadsThePairOrSp : Prop :=
  ∀ (rp : Pair) (lo hi : Byte) (s : State),
    (∀ rest, decode ((0b00#2 ++ rp.sel ++ 0b0001#4) :: lo :: hi :: rest) =
      .ok (.lxi rp (wordOf hi lo), rest)) ∧
    (s.pc.toNat ≤ 0xFFFC → exec (.lxi rp (wordOf hi lo)) s = .next { (match rp with
      | .bc => { s with regs := { s.regs with b := hi, c := lo } }
      | .de => { s with regs := { s.regs with d := hi, e := lo } }
      | .hl => { s with regs := { s.regs with h := hi, l := lo } }
      | .sp => { s with sp := wordOf hi lo } : State) with pc := s.pc + 3 }) ∧
    (0xFFFD ≤ s.pc.toNat →
      exec (.lxi rp (wordOf hi lo)) s = .next { s with fault := some .outOfBounds })

/-- R88, R89. -/
def Obligations.LdaLoadsAndStaStoresTheAccumulator : Prop :=
  ∀ (a16 : Word) (s : State),
    (∀ rest, decode (0x3A :: loByte a16 :: hiByte a16 :: rest) = .ok (.lda a16, rest)) ∧
    (∀ rest, decode (0x32 :: loByte a16 :: hiByte a16 :: rest) = .ok (.sta a16, rest)) ∧
    (s.pc.toNat ≤ 0xFFFC →
      exec (.lda a16) s = .next { s with
        regs := { s.regs with a := s.mem.read a16.toNat }, pc := s.pc + 3 } ∧
      exec (.sta a16) s = .next { s with
        mem := s.mem.write a16.toNat s.regs.a, pc := s.pc + 3 }) ∧
    (0xFFFD ≤ s.pc.toNat →
      exec (.lda a16) s = .next { s with fault := some .outOfBounds } ∧
      exec (.sta a16) s = .next { s with fault := some .outOfBounds })

/-- R90. -/
def Obligations.LdaxLoadsFromBcOrDe : Prop :=
  ∀ s : State,
    (∀ rest, decode (0x0A :: rest) = .ok (.ldax .bc, rest) ∧
      decode (0x1A :: rest) = .ok (.ldax .de, rest)) ∧
    (s.pc.toNat ≤ 0xFFFE →
      exec (.ldax .bc) s = .next { s with
        regs := { s.regs with a := s.mem.read (s.regs.b.toNat * 256 + s.regs.c.toNat) },
        pc := s.pc + 1 } ∧
      exec (.ldax .de) s = .next { s with
        regs := { s.regs with a := s.mem.read (s.regs.d.toNat * 256 + s.regs.e.toNat) },
        pc := s.pc + 1 }) ∧
    (s.pc = 0xFFFF → ∀ rp, exec (.ldax rp) s = .next { s with fault := some .outOfBounds })

/-- R91, with its law that XCHG is its own inverse. -/
def Obligations.XchgSwapsHlAndDe : Prop :=
  ∀ s : State,
    (∀ rest, decode (0xEB :: rest) = .ok (.xchg, rest)) ∧
    (s.pc.toNat ≤ 0xFFFE → exec .xchg s = .next { s with
      regs := { s.regs with h := s.regs.d, d := s.regs.h, l := s.regs.e, e := s.regs.l },
      pc := s.pc + 1 }) ∧
    (s.pc = 0xFFFF → exec .xchg s = .next { s with fault := some .outOfBounds }) ∧
    (s.pc.toNat ≤ 0xFFFD → ∃ t, exec .xchg s = .next t ∧
      exec .xchg t = .next { s with pc := s.pc + 2 })

/-! ### Arithmetic and logical. `Config.acDraw s.draws` is the free bit: each statement holds for every
value of the field `draws` and whatever the draw returns (R101). -/

/-- R102, R105. That ADD exists is the spec's decision D3. The form of the draw, `Config.acDraw` of the
counter `draws`, is the model's own choice (log entry 3). -/
def Obligations.AdiAndAddAddToTheAccumulator : Prop :=
  ∀ (d8 : Byte) (src : Operand) (s : State),
    (∀ rest, decode (0xC6 :: d8 :: rest) = .ok (.adi d8, rest) ∧
      decode ((0b10000#5 ++ src.sel) :: rest) = .ok (.add src, rest)) ∧
    (s.pc.toNat ≤ 0xFFFD → exec (.adi d8) s = .next { s with
      regs := { s.regs with a := s.regs.a + d8 },
      flags := { s.flags.setZSP (s.regs.a + d8) with
        cy := decide (256 ≤ s.regs.a.toNat + d8.toNat), ac := Config.acDraw s.draws },
      draws := s.draws + 1, pc := s.pc + 2 }) ∧
    (0xFFFE ≤ s.pc.toNat → exec (.adi d8) s = .next { s with fault := some .outOfBounds }) ∧
    (s.pc.toNat ≤ 0xFFFE → exec (.add src) s = .next { s with
      regs := { s.regs with a := s.regs.a + rdOp src s },
      flags := { s.flags.setZSP (s.regs.a + rdOp src s) with
        cy := decide (256 ≤ s.regs.a.toNat + (rdOp src s).toNat), ac := Config.acDraw s.draws },
      draws := s.draws + 1, pc := s.pc + 1 }) ∧
    (s.pc = 0xFFFF → exec (.add src) s = .next { s with fault := some .outOfBounds })

/-- R104, with its consequence for `z`. The form of the draw, `Config.acDraw` of the
counter `draws`, is the model's own choice (log entry 3). -/
def Obligations.CpiComparesTheImmediate : Prop :=
  ∀ (d8 : Byte) (s : State),
    (∀ rest, decode (0xFE :: d8 :: rest) = .ok (.cpi d8, rest)) ∧
    (s.pc.toNat ≤ 0xFFFD → ∃ f : Flags,
      exec (.cpi d8) s = .next { s with flags := f, draws := s.draws + 1, pc := s.pc + 2 } ∧
      f = { s.flags.setZSP (s.regs.a - d8) with
        cy := decide (s.regs.a.toNat < d8.toNat), ac := Config.acDraw s.draws } ∧
      (f.z = true ↔ s.regs.a = d8)) ∧
    (0xFFFE ≤ s.pc.toNat → exec (.cpi d8) s = .next { s with fault := some .outOfBounds })

/-- R106. That `cy` is cleared when there is no carry out is the spec's inference, marked there. -/
def Obligations.DadAddsThePairToHl : Prop :=
  ∀ (rp : Pair) (s : State),
    (∀ rest, decode ((0b00#2 ++ rp.sel ++ 0b1001#4) :: rest) = .ok (.dad rp, rest)) ∧
    (s.pc.toNat ≤ 0xFFFE → exec (.dad rp) s = .next { s with
      regs := { s.regs with h := hiByte (s.hl + rdPair rp s), l := loByte (s.hl + rdPair rp s) },
      flags := { s.flags with cy := decide (65536 ≤ s.hl.toNat + (rdPair rp s).toNat) },
      pc := s.pc + 1 }) ∧
    (s.pc = 0xFFFF → exec (.dad rp) s = .next { s with fault := some .outOfBounds })

/-- R107, R108. The form of the draw, `Config.acDraw` of the
counter `draws`, is the model's own choice (log entry 3). -/
def Obligations.InrAndDcrStepTheOperandAndKeepCarry : Prop :=
  ∀ (d : Operand) (s : State),
    (∀ rest, decode ((0b00#2 ++ d.sel ++ 0b100#3) :: rest) = .ok (.inr d, rest) ∧
      decode ((0b00#2 ++ d.sel ++ 0b101#3) :: rest) = .ok (.dcr d, rest)) ∧
    (s.pc.toNat ≤ 0xFFFE →
      exec (.inr d) s = .next { wrOp d (rdOp d s + 1) s with
        flags := { s.flags.setZSP (rdOp d s + 1) with
          cy := s.flags.cy, ac := Config.acDraw s.draws },
        draws := s.draws + 1, pc := s.pc + 1 } ∧
      exec (.dcr d) s = .next { wrOp d (rdOp d s - 1) s with
        flags := { s.flags.setZSP (rdOp d s - 1) with
          cy := s.flags.cy, ac := Config.acDraw s.draws },
        draws := s.draws + 1, pc := s.pc + 1 }) ∧
    (s.pc = 0xFFFF →
      exec (.inr d) s = .next { s with fault := some .outOfBounds } ∧
      exec (.dcr d) s = .next { s with fault := some .outOfBounds })

/-- R109. -/
def Obligations.InxIncrementsThePairAndNoFlag : Prop :=
  ∀ (rp : Pair) (s : State),
    (∀ rest, decode ((0b00#2 ++ rp.sel ++ 0b0011#4) :: rest) = .ok (.inx rp, rest)) ∧
    (s.pc.toNat ≤ 0xFFFE → ∃ t, exec (.inx rp) s = .next { t with pc := s.pc + 1 } ∧
      t = (match rp with
        | .bc => { s with regs := { s.regs with b := hiByte (s.bc + 1), c := loByte (s.bc + 1) } }
        | .de => { s with regs := { s.regs with d := hiByte (s.de + 1), e := loByte (s.de + 1) } }
        | .hl => { s with regs := { s.regs with h := hiByte (s.hl + 1), l := loByte (s.hl + 1) } }
        | .sp => { s with sp := s.sp + 1 } : State)) ∧
    (s.pc = 0xFFFF → exec (.inx rp) s = .next { s with fault := some .outOfBounds })

/-- R103, R110, R111. The form of the draw, `Config.acDraw` of the
counter `draws`, is the model's own choice (log entry 3). -/
def Obligations.AniAnaAndXraCombineAndClearCarry : Prop :=
  ∀ (d8 : Byte) (src : Operand) (s : State),
    (∀ rest, decode (0xE6 :: d8 :: rest) = .ok (.ani d8, rest) ∧
      decode ((0b10100#5 ++ src.sel) :: rest) = .ok (.ana src, rest) ∧
      decode ((0b10101#5 ++ src.sel) :: rest) = .ok (.xra src, rest)) ∧
    (s.pc.toNat ≤ 0xFFFD → exec (.ani d8) s = .next { s with
      regs := { s.regs with a := s.regs.a &&& d8 },
      flags := { s.flags.setZSP (s.regs.a &&& d8) with
        cy := false, ac := Config.acDraw s.draws },
      draws := s.draws + 1, pc := s.pc + 2 }) ∧
    (0xFFFE ≤ s.pc.toNat → exec (.ani d8) s = .next { s with fault := some .outOfBounds }) ∧
    (s.pc.toNat ≤ 0xFFFE →
      exec (.ana src) s = .next { s with
        regs := { s.regs with a := s.regs.a &&& rdOp src s },
        flags := { s.flags.setZSP (s.regs.a &&& rdOp src s) with
          cy := false, ac := Config.acDraw s.draws },
        draws := s.draws + 1, pc := s.pc + 1 } ∧
      exec (.xra src) s = .next { s with
        regs := { s.regs with a := s.regs.a ^^^ rdOp src s },
        flags := { s.flags.setZSP (s.regs.a ^^^ rdOp src s) with
          cy := false, ac := Config.acDraw s.draws },
        draws := s.draws + 1, pc := s.pc + 1 }) ∧
    (s.pc = 0xFFFF →
      exec (.ana src) s = .next { s with fault := some .outOfBounds } ∧
      exec (.xra src) s = .next { s with fault := some .outOfBounds })

/-- R112, with its law in the corrected form: eight RLC restore A and leave `cy` = the original A[0]. That
the other flags stay is the spec's decision D8. -/
def Obligations.RlcRotatesTheAccumulatorLeft : Prop :=
  ∀ s : State,
    (∀ rest, decode (0x07 :: rest) = .ok (.rlc, rest)) ∧
    (s.pc.toNat ≤ 0xFFFE → exec .rlc s = .next { s with
      regs := { s.regs with a := s.regs.a.rotateLeft 1 },
      flags := { s.flags with cy := s.regs.a.getLsbD 7 }, pc := s.pc + 1 }) ∧
    (s.pc = 0xFFFF → exec .rlc s = .next { s with fault := some .outOfBounds }) ∧
    (s.pc.toNat ≤ 0xFFF7 →
      ({ Sys2Proof.core with step := exec .rlc } : Host.Core).run 8 s = .next { s with
        flags := { s.flags with cy := s.regs.a.getLsbD 0 }, pc := s.pc + 8 })

/-- R113, with its laws: RRC undoes RLC on A, and eight RRC restore A and leave `cy` = the original
A[7]. That the other flags stay is the spec's decision D8. -/
def Obligations.RrcRotatesTheAccumulatorRight : Prop :=
  ∀ s : State,
    (∀ rest, decode (0x0F :: rest) = .ok (.rrc, rest)) ∧
    (s.pc.toNat ≤ 0xFFFE → exec .rrc s = .next { s with
      regs := { s.regs with a := s.regs.a.rotateRight 1 },
      flags := { s.flags with cy := s.regs.a.getLsbD 0 }, pc := s.pc + 1 }) ∧
    (s.pc = 0xFFFF → exec .rrc s = .next { s with fault := some .outOfBounds }) ∧
    (s.pc.toNat ≤ 0xFFFD → ∃ t u, exec .rlc s = .next t ∧ exec .rrc t = .next u ∧
      u.regs = s.regs) ∧
    (s.pc.toNat ≤ 0xFFF7 →
      ({ Sys2Proof.core with step := exec .rrc } : Host.Core).run 8 s = .next { s with
        flags := { s.flags with cy := s.regs.a.getLsbD 7 }, pc := s.pc + 8 })

/-- R114, with its law that CMA twice restores A. -/
def Obligations.CmaComplementsTheAccumulatorAndNoFlag : Prop :=
  ∀ s : State,
    (∀ rest, decode (0x2F :: rest) = .ok (.cma, rest)) ∧
    (s.pc.toNat ≤ 0xFFFE → ∃ v : Byte,
      exec .cma s = .next { s with regs := { s.regs with a := v }, pc := s.pc + 1 } ∧
      v.toNat = 255 - s.regs.a.toNat) ∧
    (s.pc = 0xFFFF → exec .cma s = .next { s with fault := some .outOfBounds }) ∧
    (s.pc.toNat ≤ 0xFFFD → ∃ t, exec .cma s = .next t ∧
      exec .cma t = .next { s with pc := s.pc + 2 })

/-- R115, R116. -/
def Obligations.StcSetsAndCmcTogglesCarry : Prop :=
  ∀ s : State,
    (∀ rest, decode (0x37 :: rest) = .ok (.stc, rest) ∧ decode (0x3F :: rest) = .ok (.cmc, rest)) ∧
    (s.pc.toNat ≤ 0xFFFE →
      exec .stc s = .next { s with flags := { s.flags with cy := true }, pc := s.pc + 1 } ∧
      exec .cmc s = .next { s with flags := { s.flags with cy := !s.flags.cy }, pc := s.pc + 1 }) ∧
    (s.pc = 0xFFFF →
      exec .stc s = .next { s with fault := some .outOfBounds } ∧
      exec .cmc s = .next { s with fault := some .outOfBounds })

/-! ### Stack and control -/

/-- R130, with the spec's decisions D5 (`sp` below 2) and D9 (bits 5 and 3). -/
def Obligations.PushStoresThePairBelowSp : Prop :=
  ∀ (rp : StackPair) (s : State),
    (∀ rest, decode ((0b11#2 ++ rp.sel ++ 0b0101#4) :: rest) = .ok (.push rp, rest)) ∧
    (s.pc.toNat ≤ 0xFFFE → 2 ≤ s.sp.toNat → ∃ hi lo : Byte,
      (hi, lo) = (match rp with
        | .bc => (s.regs.b, s.regs.c)
        | .de => (s.regs.d, s.regs.e)
        | .hl => (s.regs.h, s.regs.l)
        | .psw => (s.regs.a, s.flags.toByte)) ∧
      exec (.push rp) s = .next { s with
        mem := (s.mem.write (s.sp.toNat - 1) hi).write (s.sp.toNat - 2) lo,
        sp := s.sp - 2, pc := s.pc + 1 }) ∧
    (s.pc = 0xFFFF ∨ s.sp.toNat < 2 →
      exec (.push rp) s = .next { s with fault := some .outOfBounds })

/-- R131, with its law: POP straight after PUSH of the same pair restores the pair and `sp`, for PSW the
five flags too. The spec's decisions D5 and D9, and its inference for PSW, are in it. -/
def Obligations.PopLoadsThePairAndUndoesPush : Prop :=
  ∀ (rp : StackPair) (s : State),
    (∀ rest, decode ((0b11#2 ++ rp.sel ++ 0b0001#4) :: rest) = .ok (.pop rp, rest)) ∧
    (s.pc.toNat ≤ 0xFFFE → s.sp.toNat ≤ 0xFFFD → ∃ hi lo : Byte,
      lo = s.mem.read s.sp.toNat ∧ hi = s.mem.read (s.sp.toNat + 1) ∧
      exec (.pop rp) s = .next { (match rp with
        | .bc => { s with regs := { s.regs with b := hi, c := lo } }
        | .de => { s with regs := { s.regs with d := hi, e := lo } }
        | .hl => { s with regs := { s.regs with h := hi, l := lo } }
        | .psw => { s with regs := { s.regs with a := hi }, flags := Flags.ofByte lo } : State) with
        sp := s.sp + 2, pc := s.pc + 1 }) ∧
    (s.pc = 0xFFFF ∨ 0xFFFE ≤ s.sp.toNat →
      exec (.pop rp) s = .next { s with fault := some .outOfBounds }) ∧
    (s.mem.wf = true → s.pc.toNat ≤ 0xFFFD → 2 ≤ s.sp.toNat → ∃ t,
      exec (.push rp) s = .next t ∧
      exec (.pop rp) t = .next { s with mem := t.mem, pc := s.pc + 2 })

/-- R132. -/
def Obligations.JmpSetsThePc : Prop :=
  ∀ (a16 : Word) (s : State),
    (∀ rest, decode (0xC3 :: loByte a16 :: hiByte a16 :: rest) = .ok (.jmp a16, rest)) ∧
    (s.pc.toNat ≤ 0xFFFD → exec (.jmp a16) s = .next { s with pc := a16 }) ∧
    (0xFFFE ≤ s.pc.toNat → exec (.jmp a16) s = .next { s with fault := some .outOfBounds })

/-- R133, with the spec's decision D11 (the operand bytes are read on both paths). -/
def Obligations.JnzJumpsWhenZeroIsClear : Prop :=
  ∀ (a16 : Word) (s : State),
    (∀ rest, decode (0xC2 :: loByte a16 :: hiByte a16 :: rest) = .ok (.jnz a16, rest)) ∧
    (s.pc.toNat ≤ 0xFFFD → s.flags.z = false → exec (.jnz a16) s = .next { s with pc := a16 }) ∧
    (s.pc.toNat ≤ 0xFFFC → s.flags.z = true →
      exec (.jnz a16) s = .next { s with pc := s.pc + 3 }) ∧
    (0xFFFE ≤ s.pc.toNat ∨ s.pc = 0xFFFD ∧ s.flags.z = true →
      exec (.jnz a16) s = .next { s with fault := some .outOfBounds })

/-- R134, with the spec's decision D5. -/
def Obligations.CallPushesTheReturnAddress : Prop :=
  ∀ (a16 : Word) (s : State),
    (∀ rest, decode (0xCD :: loByte a16 :: hiByte a16 :: rest) = .ok (.call a16, rest)) ∧
    (s.pc.toNat ≤ 0xFFFC → 2 ≤ s.sp.toNat → exec (.call a16) s = .next { s with
      mem := (s.mem.write (s.sp.toNat - 1) (hiByte (s.pc + 3))).write (s.sp.toNat - 2)
        (loByte (s.pc + 3)),
      sp := s.sp - 2, pc := a16 }) ∧
    (0xFFFD ≤ s.pc.toNat ∨ s.sp.toNat < 2 →
      exec (.call a16) s = .next { s with fault := some .outOfBounds })

/-- R135, with its law: RET straight after CALL goes to the instruction after the CALL and restores
`sp`. The spec's decision D5 is in it. -/
def Obligations.RetPopsThePcAndUndoesCall : Prop :=
  ∀ (a16 : Word) (s : State),
    (∀ rest, decode (0xC9 :: rest) = .ok (.ret, rest)) ∧
    (s.sp.toNat ≤ 0xFFFD → exec .ret s = .next { s with
      pc := wordOf (s.mem.read (s.sp.toNat + 1)) (s.mem.read s.sp.toNat), sp := s.sp + 2 }) ∧
    (0xFFFE ≤ s.sp.toNat → exec .ret s = .next { s with fault := some .outOfBounds }) ∧
    (s.mem.wf = true → s.pc.toNat ≤ 0xFFFC → 2 ≤ s.sp.toNat → ∃ t,
      exec (.call a16) s = .next t ∧ t.pc = a16 ∧
      exec .ret t = .next { s with mem := t.mem, pc := s.pc + 3 })

/-- R136, R137: the stubs change nothing but `pc`, whatever the port. That IN leaves A is the
spec's decision D10. -/
def Obligations.OutAndInOnlyAdvanceThePc : Prop :=
  ∀ (port : Byte) (s : State),
    (∀ rest, decode (0xD3 :: port :: rest) = .ok (.outPort port, rest) ∧
      decode (0xDB :: port :: rest) = .ok (.inPort port, rest)) ∧
    (s.pc.toNat ≤ 0xFFFD →
      exec (.outPort port) s = .next { s with pc := s.pc + 2 } ∧
      exec (.inPort port) s = .next { s with pc := s.pc + 2 }) ∧
    (0xFFFE ≤ s.pc.toNat →
      exec (.outPort port) s = .next { s with fault := some .outOfBounds } ∧
      exec (.inPort port) s = .next { s with fault := some .outOfBounds })

/-- R138, R139. -/
def Obligations.EiSetsAndDiClearsInte : Prop :=
  ∀ s : State,
    (∀ rest, decode (0xFB :: rest) = .ok (.ei, rest) ∧ decode (0xF3 :: rest) = .ok (.di, rest)) ∧
    (s.pc.toNat ≤ 0xFFFE →
      exec .ei s = .next { s with inte := true, pc := s.pc + 1 } ∧
      exec .di s = .next { s with inte := false, pc := s.pc + 1 }) ∧
    (s.pc = 0xFFFF →
      exec .ei s = .next { s with fault := some .outOfBounds } ∧
      exec .di s = .next { s with fault := some .outOfBounds })

/-- R140, R57: byte 0x76 is HLT, which moves `pc` past itself and sets `halted`; from then on `step`
changes nothing (the spec's decision D4). -/
def Obligations.HltHaltsOnePastItself : Prop :=
  ∀ s : State,
    (∀ rest, decode (0x76 :: rest) = .ok (.hlt, rest)) ∧
    (s.pc.toNat ≤ 0xFFFE → ∃ t, exec .hlt s = .next t ∧
      t = { s with halted := true, pc := s.pc + 1 } ∧ step t = .next t) ∧
    (s.pc = 0xFFFF → exec .hlt s = .next { s with fault := some .outOfBounds })

/-! ### The order of a push's writes -/

/-- R41: the order of the two writes of a push is not observable. The model writes the high byte first, as
R130 and R134 list the writes; lower address first, as decision D11 words it, leaves the same state
(log entry 11). -/
def Obligations.PushWriteOrderIsNotObservable : Prop :=
  ∀ (hi lo : Byte) (s : State), s.mem.wf = true → 2 ≤ s.sp.toNat →
    pushBytes hi lo s = .ok { s with
      mem := (s.mem.write (s.sp.toNat - 2) lo).write (s.sp.toNat - 1) hi, sp := s.sp - 2 } ∧
    s.mem.afterAccesses (pushWrites .lowerFirst hi lo s) =
      s.mem.afterAccesses (pushWrites .listed hi lo s)
end

