-- ==== Sys2Proof/Laws/Memory.lean ====
section
/-! SUPPORT. The laws of memory: read after write, and the canonical form. -/

namespace Sys2Proof.Machine

@[simp] theorem Memory.read_nil (addr : Nat) : Memory.read [] addr = 0 := rfl

theorem Memory.read_cons (c : Host.Cell) (m : Memory) (addr : Nat) :
    Memory.read (c :: m) addr = if c.1 = addr then c.2 else Memory.read m addr := rfl

/-- The canonical form, cell by cell. -/
theorem Memory.wf_cons (c : Host.Cell) (m : Memory) :
    Memory.wf (c :: m) = true ↔
      c.1 < 65536 ∧ c.2 ≠ 0 ∧ (∀ c' ∈ m, c.1 < c'.1) ∧ Memory.wf m = true := by
  simp [Memory.wf, Memory.unlisted, and_assoc]

/-- An address below every listed one reads as an unlisted address does. -/
theorem Memory.read_of_lt {m : Memory} {addr : Nat} (h : ∀ c ∈ m, addr < c.1) :
    Memory.read m addr = 0 := by
  induction m with
  | nil => rfl
  | cons c m ih =>
    have hc := h c (List.mem_cons_self ..)
    rw [Memory.read_cons, if_neg (by omega)]
    exact ih fun c' hc' => h c' (List.mem_cons_of_mem _ hc')

theorem Memory.read_put {m : Memory} {addr : Nat} (h : ∀ c ∈ m, addr < c.1) (v : Byte) (b : Nat) :
    Memory.read (Memory.put m addr v) b = if b = addr then v else Memory.read m b := by
  unfold Memory.put
  by_cases hv : v = Memory.unlisted
  · rw [if_pos hv]
    by_cases hb : b = addr
    · subst hb; rw [if_pos rfl, Memory.read_of_lt h, hv]; rfl
    · rw [if_neg hb]
  · rw [if_neg hv, Memory.read_cons]
    by_cases hb : b = addr
    · simp [hb]
    · simp [hb, Ne.symm hb]

theorem Memory.put_bound {m : Memory} {addr lim : Nat} {v : Byte} (ha : lim < addr)
    (h : ∀ c ∈ m, lim < c.1) : ∀ c ∈ Memory.put m addr v, lim < c.1 := by
  unfold Memory.put
  split
  · exact h
  · intro c hc
    rcases List.mem_cons.mp hc with rfl | hc
    · exact ha
    · exact h c hc

theorem Memory.write_bound {m : Memory} {addr lim : Nat} {v : Byte} (ha : lim < addr)
    (h : ∀ c ∈ m, lim < c.1) : ∀ c ∈ Memory.write m addr v, lim < c.1 := by
  induction m with
  | nil => exact Memory.put_bound ha h
  | cons c m ih =>
    have hm : ∀ c' ∈ m, lim < c'.1 := fun c' hc' => h c' (List.mem_cons_of_mem _ hc')
    unfold Memory.write
    split
    · exact Memory.put_bound ha h
    · split
      · exact Memory.put_bound ha hm
      · intro c' hc'
        rcases List.mem_cons.mp hc' with rfl | hc'
        · exact h _ (List.mem_cons_self ..)
        · exact ih hm c' hc'

/-- Read after write (R31, R32): the written address reads as the value, every other one as before. -/
theorem Memory.read_write {m : Memory} (h : Memory.wf m = true) (addr : Nat) (v : Byte) (b : Nat) :
    Memory.read (Memory.write m addr v) b = if b = addr then v else Memory.read m b := by
  induction m with
  | nil => exact Memory.read_put (by simp) v b
  | cons c m ih =>
    obtain ⟨-, -, hlt, hm⟩ := (Memory.wf_cons c m).mp h
    unfold Memory.write
    split
    · rename_i hac
      refine Memory.read_put (fun c' hc' => ?_) v b
      rcases List.mem_cons.mp hc' with rfl | hc'
      · exact hac
      · exact hac.trans (hlt c' hc')
    · split
      · rename_i hac
        rw [Memory.read_put (fun c' hc' => hac ▸ hlt c' hc'), Memory.read_cons]
        by_cases hb : b = addr
        · simp [hb]
        · simp [hb, show ¬ c.1 = b by omega]
      · rw [Memory.read_cons, Memory.read_cons, ih hm]
        by_cases hcb : c.1 = b
        · simp [hcb, show ¬ b = addr by omega]
        · simp [hcb]

theorem Memory.read_write_same {m : Memory} (h : Memory.wf m = true) (addr : Nat) (v : Byte) :
    Memory.read (Memory.write m addr v) addr = v := by
  simp [Memory.read_write h]

theorem Memory.read_write_ne {m : Memory} (h : Memory.wf m = true) {addr b : Nat} (hb : b ≠ addr)
    (v : Byte) : Memory.read (Memory.write m addr v) b = Memory.read m b := by
  simp [Memory.read_write h, hb]

theorem Memory.wf_put {m : Memory} {addr : Nat} {v : Byte} (hm : Memory.wf m = true)
    (ha : addr < 65536) (h : ∀ c ∈ m, addr < c.1) : Memory.wf (Memory.put m addr v) = true := by
  unfold Memory.put
  split
  · exact hm
  · rename_i hv
    exact (Memory.wf_cons _ _).mpr ⟨ha, hv, h, hm⟩

/-- A write keeps the canonical form. -/
theorem Memory.wf_write {m : Memory} (hm : Memory.wf m = true) {addr : Nat} (ha : addr < 65536)
    (v : Byte) : Memory.wf (Memory.write m addr v) = true := by
  induction m with
  | nil => exact Memory.wf_put rfl ha (by simp)
  | cons c m ih =>
    obtain ⟨h1, h2, hlt, hm'⟩ := (Memory.wf_cons c m).mp hm
    unfold Memory.write
    split
    · rename_i hac
      refine Memory.wf_put hm ha fun c' hc' => ?_
      rcases List.mem_cons.mp hc' with rfl | hc'
      · exact hac
      · exact hac.trans (hlt c' hc')
    · split
      · rename_i hac
        exact Memory.wf_put hm' ha fun c' hc' => hac ▸ hlt c' hc'
      · exact (Memory.wf_cons _ _).mpr
          ⟨h1, h2, Memory.write_bound (by omega) hlt, ih hm'⟩

/-- Storing bytes that end below 65,536 keeps the canonical form. -/
theorem Memory.wf_writeBytes {m : Memory} (hm : Memory.wf m = true) {addr : Nat} {bytes : List Byte}
    (h : addr + bytes.length ≤ 65536) : Memory.wf (Memory.writeBytes m addr bytes) = true := by
  induction bytes generalizing m addr with
  | nil => exact hm
  | cons v vs ih =>
    rw [List.length_cons] at h
    exact ih (Memory.wf_write hm (by omega) v) (by omega)

/-- An address below the first stored byte is left alone. -/
theorem Memory.read_writeBytes_of_lt {m : Memory} (hm : Memory.wf m = true) {addr b : Nat}
    {bytes : List Byte} (h : addr + bytes.length ≤ 65536) (hb : b < addr) :
    Memory.read (Memory.writeBytes m addr bytes) b = Memory.read m b := by
  induction bytes generalizing m addr with
  | nil => rfl
  | cons v vs ih =>
    rw [List.length_cons] at h
    rw [Memory.writeBytes, ih (Memory.wf_write hm (by omega) v) (by omega) (by omega),
      Memory.read_write_ne hm (by omega)]

theorem State.byteAt_def (s : State) (addr : Word) : s.byteAt addr = s.mem.read addr.toNat := rfl

end Sys2Proof.Machine
end

