-- ==== Sys2Proof/Laws/State.lean ====
section
/-! SUPPORT. What each named update of the state does to each field: one lemma per field per update. -/

namespace Sys2Proof.Machine

/-! ### setByte -/

@[simp] theorem State.setByte_regs (s : State) (addr : Word) (v : Byte) : (s.setByte addr v).regs = s.regs :=
  rfl
@[simp] theorem State.setByte_pc (s : State) (addr : Word) (v : Byte) : (s.setByte addr v).pc = s.pc :=
  rfl
@[simp] theorem State.setByte_sp (s : State) (addr : Word) (v : Byte) : (s.setByte addr v).sp = s.sp :=
  rfl
@[simp] theorem State.setByte_flags (s : State) (addr : Word) (v : Byte) : (s.setByte addr v).flags = s.flags :=
  rfl
@[simp] theorem State.setByte_inte (s : State) (addr : Word) (v : Byte) : (s.setByte addr v).inte = s.inte :=
  rfl
@[simp] theorem State.setByte_mem (s : State) (addr : Word) (v : Byte) : (s.setByte addr v).mem = s.mem.write addr.toNat v :=
  rfl
@[simp] theorem State.setByte_halted (s : State) (addr : Word) (v : Byte) : (s.setByte addr v).halted = s.halted :=
  rfl
@[simp] theorem State.setByte_fault (s : State) (addr : Word) (v : Byte) : (s.setByte addr v).fault = s.fault :=
  rfl
@[simp] theorem State.setByte_draws (s : State) (addr : Word) (v : Byte) : (s.setByte addr v).draws = s.draws :=
  rfl

/-! ### setA -/

@[simp] theorem State.setA_regs (s : State) (v : Byte) : (s.setA v).regs = s.regs.set .a v := rfl
@[simp] theorem State.setA_pc (s : State) (v : Byte) : (s.setA v).pc = s.pc := rfl
@[simp] theorem State.setA_sp (s : State) (v : Byte) : (s.setA v).sp = s.sp := rfl
@[simp] theorem State.setA_flags (s : State) (v : Byte) : (s.setA v).flags = s.flags := rfl
@[simp] theorem State.setA_inte (s : State) (v : Byte) : (s.setA v).inte = s.inte := rfl
@[simp] theorem State.setA_mem (s : State) (v : Byte) : (s.setA v).mem = s.mem := rfl
@[simp] theorem State.setA_halted (s : State) (v : Byte) : (s.setA v).halted = s.halted := rfl
@[simp] theorem State.setA_fault (s : State) (v : Byte) : (s.setA v).fault = s.fault := rfl
@[simp] theorem State.setA_draws (s : State) (v : Byte) : (s.setA v).draws = s.draws := rfl

/-! ### setZSP -/

@[simp] theorem setZSP_regs (s : State) (r : Byte) : (setZSP r s).regs = s.regs := rfl
@[simp] theorem setZSP_pc (s : State) (r : Byte) : (setZSP r s).pc = s.pc := rfl
@[simp] theorem setZSP_sp (s : State) (r : Byte) : (setZSP r s).sp = s.sp := rfl
@[simp] theorem setZSP_flags (s : State) (r : Byte) : (setZSP r s).flags = s.flags.setZSP r := rfl
@[simp] theorem setZSP_inte (s : State) (r : Byte) : (setZSP r s).inte = s.inte := rfl
@[simp] theorem setZSP_mem (s : State) (r : Byte) : (setZSP r s).mem = s.mem := rfl
@[simp] theorem setZSP_halted (s : State) (r : Byte) : (setZSP r s).halted = s.halted := rfl
@[simp] theorem setZSP_fault (s : State) (r : Byte) : (setZSP r s).fault = s.fault := rfl
@[simp] theorem setZSP_draws (s : State) (r : Byte) : (setZSP r s).draws = s.draws := rfl

/-! ### setCarry -/

@[simp] theorem setCarry_regs (s : State) (v : Bool) : (setCarry v s).regs = s.regs := rfl
@[simp] theorem setCarry_pc (s : State) (v : Bool) : (setCarry v s).pc = s.pc := rfl
@[simp] theorem setCarry_sp (s : State) (v : Bool) : (setCarry v s).sp = s.sp := rfl
@[simp] theorem setCarry_flags (s : State) (v : Bool) : (setCarry v s).flags = { s.flags with cy := v } :=
  rfl
@[simp] theorem setCarry_inte (s : State) (v : Bool) : (setCarry v s).inte = s.inte := rfl
@[simp] theorem setCarry_mem (s : State) (v : Bool) : (setCarry v s).mem = s.mem := rfl
@[simp] theorem setCarry_halted (s : State) (v : Bool) : (setCarry v s).halted = s.halted := rfl
@[simp] theorem setCarry_fault (s : State) (v : Bool) : (setCarry v s).fault = s.fault := rfl
@[simp] theorem setCarry_draws (s : State) (v : Bool) : (setCarry v s).draws = s.draws := rfl

/-! ### drawAc -/

@[simp] theorem drawAc_regs (s : State) : (drawAc s).regs = s.regs := rfl
@[simp] theorem drawAc_pc (s : State) : (drawAc s).pc = s.pc := rfl
@[simp] theorem drawAc_sp (s : State) : (drawAc s).sp = s.sp := rfl
@[simp] theorem drawAc_flags (s : State) : (drawAc s).flags = { s.flags with ac := Config.acDraw s.draws } :=
  rfl
@[simp] theorem drawAc_inte (s : State) : (drawAc s).inte = s.inte := rfl
@[simp] theorem drawAc_mem (s : State) : (drawAc s).mem = s.mem := rfl
@[simp] theorem drawAc_halted (s : State) : (drawAc s).halted = s.halted := rfl
@[simp] theorem drawAc_fault (s : State) : (drawAc s).fault = s.fault := rfl
@[simp] theorem drawAc_draws (s : State) : (drawAc s).draws = s.draws + 1 := rfl

/-! ### raiseFault -/

@[simp] theorem raiseFault_regs (s : State) (f : Fault) : (raiseFault f s).regs = s.regs := rfl
@[simp] theorem raiseFault_pc (s : State) (f : Fault) : (raiseFault f s).pc = s.pc := rfl
@[simp] theorem raiseFault_sp (s : State) (f : Fault) : (raiseFault f s).sp = s.sp := rfl
@[simp] theorem raiseFault_flags (s : State) (f : Fault) : (raiseFault f s).flags = s.flags := rfl
@[simp] theorem raiseFault_inte (s : State) (f : Fault) : (raiseFault f s).inte = s.inte := rfl
@[simp] theorem raiseFault_mem (s : State) (f : Fault) : (raiseFault f s).mem = s.mem := rfl
@[simp] theorem raiseFault_halted (s : State) (f : Fault) : (raiseFault f s).halted = s.halted :=
  rfl
@[simp] theorem raiseFault_fault (s : State) (f : Fault) : (raiseFault f s).fault = some f := rfl
@[simp] theorem raiseFault_draws (s : State) (f : Fault) : (raiseFault f s).draws = s.draws := rfl

/-! ### wrOp: the fields no form of it writes -/

@[simp] theorem wrOp_pc (s : State) (o : Operand) (v : Byte) : (wrOp o v s).pc = s.pc := by
  cases o <;> rfl
@[simp] theorem wrOp_sp (s : State) (o : Operand) (v : Byte) : (wrOp o v s).sp = s.sp := by
  cases o <;> rfl
@[simp] theorem wrOp_flags (s : State) (o : Operand) (v : Byte) : (wrOp o v s).flags = s.flags := by
  cases o <;> rfl
@[simp] theorem wrOp_inte (s : State) (o : Operand) (v : Byte) : (wrOp o v s).inte = s.inte := by
  cases o <;> rfl
@[simp] theorem wrOp_halted (s : State) (o : Operand) (v : Byte) : (wrOp o v s).halted = s.halted := by
  cases o <;> rfl
@[simp] theorem wrOp_fault (s : State) (o : Operand) (v : Byte) : (wrOp o v s).fault = s.fault := by
  cases o <;> rfl
@[simp] theorem wrOp_draws (s : State) (o : Operand) (v : Byte) : (wrOp o v s).draws = s.draws := by
  cases o <;> rfl

/-! ### wrPair: the fields no form of it writes -/

@[simp] theorem wrPair_pc (s : State) (k : Pair) (v : Word) : (wrPair k v s).pc = s.pc := by
  cases k <;> rfl
@[simp] theorem wrPair_flags (s : State) (k : Pair) (v : Word) : (wrPair k v s).flags = s.flags := by
  cases k <;> rfl
@[simp] theorem wrPair_inte (s : State) (k : Pair) (v : Word) : (wrPair k v s).inte = s.inte := by
  cases k <;> rfl
@[simp] theorem wrPair_mem (s : State) (k : Pair) (v : Word) : (wrPair k v s).mem = s.mem := by
  cases k <;> rfl
@[simp] theorem wrPair_halted (s : State) (k : Pair) (v : Word) : (wrPair k v s).halted = s.halted := by
  cases k <;> rfl
@[simp] theorem wrPair_fault (s : State) (k : Pair) (v : Word) : (wrPair k v s).fault = s.fault := by
  cases k <;> rfl
@[simp] theorem wrPair_draws (s : State) (k : Pair) (v : Word) : (wrPair k v s).draws = s.draws := by
  cases k <;> rfl

/-! ### wrStackPair: the fields no form of it writes -/

@[simp] theorem wrStackPair_pc (s : State) (k : StackPair) (hi lo : Byte) : (wrStackPair k hi lo s).pc = s.pc := by
  cases k <;> rfl
@[simp] theorem wrStackPair_sp (s : State) (k : StackPair) (hi lo : Byte) : (wrStackPair k hi lo s).sp = s.sp := by
  cases k <;> rfl
@[simp] theorem wrStackPair_inte (s : State) (k : StackPair) (hi lo : Byte) : (wrStackPair k hi lo s).inte = s.inte := by
  cases k <;> rfl
@[simp] theorem wrStackPair_mem (s : State) (k : StackPair) (hi lo : Byte) : (wrStackPair k hi lo s).mem = s.mem := by
  cases k <;> rfl
@[simp] theorem wrStackPair_halted (s : State) (k : StackPair) (hi lo : Byte) : (wrStackPair k hi lo s).halted = s.halted := by
  cases k <;> rfl
@[simp] theorem wrStackPair_fault (s : State) (k : StackPair) (hi lo : Byte) : (wrStackPair k hi lo s).fault = s.fault := by
  cases k <;> rfl
@[simp] theorem wrStackPair_draws (s : State) (k : StackPair) (hi lo : Byte) : (wrStackPair k hi lo s).draws = s.draws := by
  cases k <;> rfl

/-! ### The forms of `wrOp` and `wrPair` -/

@[simp] theorem wrOp_reg (r : Reg8) (v : Byte) (s : State) :
    wrOp (.reg r) v s = { s with regs := s.regs.set r v } := rfl
@[simp] theorem wrOp_mem (v : Byte) (s : State) : wrOp .mem v s = s.setByte s.hl v := rfl
@[simp] theorem rdOp_reg (r : Reg8) (s : State) : rdOp (.reg r) s = s.regs.get r := rfl
@[simp] theorem rdOp_mem (s : State) : rdOp .mem s = s.byteAt s.hl := rfl
@[simp] theorem wrPair_sp (v : Word) (s : State) : wrPair .sp v s = { s with sp := v } := rfl

/-! ### Registers -/

/-- A register holds the last value written to it, and writing one leaves the others alone (R10). -/
@[simp] theorem Regs.get_set (r : Regs) (n m : Reg8) (v : Byte) :
    (r.set n v).get m = if m = n then v else r.get m := by
  cases n <;> cases m <;> rfl

end Sys2Proof.Machine
end

