-- ==== Sys2Proof/Laws/Ops.lean ====
section
/-! SUPPORT. One specification lemma for each shared operation: everything it can do. -/

namespace Sys2Proof.Machine

/-! ### Byte order -/

@[simp] theorem hiByte_wordOf (hi lo : Byte) : hiByte (wordOf hi lo) = hi := by
  apply BitVec.eq_of_getLsbD_eq
  intro i hi'
  simp only [hiByte, wordOf, BitVec.getLsbD_extractLsb', BitVec.getLsbD_append]
  simp [hi']

@[simp] theorem loByte_wordOf (hi lo : Byte) : loByte (wordOf hi lo) = lo := by
  apply BitVec.eq_of_getLsbD_eq
  intro i hi'
  simp only [loByte, wordOf, BitVec.getLsbD_extractLsb', BitVec.getLsbD_append]
  simp [hi']

@[simp] theorem wordOf_hiByte_loByte (w : Word) : wordOf (hiByte w) (loByte w) = w := by
  apply BitVec.eq_of_getLsbD_eq
  intro i hi
  simp only [hiByte, loByte, wordOf, BitVec.getLsbD_extractLsb', BitVec.getLsbD_append]
  by_cases h : i < 8
  · simp [h]
  · simp [h, show i - 8 < 8 by omega, show 8 + (i - 8) = i by omega]

/-! ### Checked arithmetic and access -/

theorem inRange16_iff (v : Int) : inRange16 v = true ↔ 0 ≤ v ∧ v ≤ 65535 := by
  cases v with
  | ofNat n => simp only [inRange16, decide_eq_true_eq, Int.ofNat_eq_natCast]; omega
  | negSucc n => simp only [inRange16, Bool.false_eq_true, false_iff]; omega

theorem chk16_ok {v : Int} (h : 0 ≤ v ∧ v ≤ 65535) : chk16 v = .ok (BitVec.ofInt 16 v) :=
  if_pos ((inRange16_iff _).mpr h)

theorem chk16_error {v : Int} (h : ¬(0 ≤ v ∧ v ≤ 65535)) : chk16 v = .error .outOfBounds :=
  if_neg (mt (inRange16_iff _).mp h)

/-- The check of a value above a 16-bit one: it passes without a wrap. -/
theorem chk16_add_ok {w : Word} {n : Nat} (h : w.toNat + n ≤ 65535) :
    chk16 ((w.toNat : Int) + n) = .ok (w + BitVec.ofNat 16 n) := by
  rw [chk16_ok (by omega)]
  congr 1
  apply BitVec.eq_of_toNat_eq
  rw [BitVec.toNat_ofInt, BitVec.toNat_add, BitVec.toNat_ofNat]
  omega

theorem chk16_add_error {w : Word} {n : Nat} (h : 65535 < w.toNat + n) :
    chk16 ((w.toNat : Int) + n) = .error .outOfBounds := chk16_error (by omega)

/-- The check of the `sp` after a push. -/
theorem chk16_sub_ok {w : Word} (h : 2 ≤ w.toNat) : chk16 ((w.toNat : Int) - 2) = .ok (w - 2) := by
  rw [chk16_ok (by have := w.isLt; omega)]
  congr 1
  apply BitVec.eq_of_toNat_eq
  rw [BitVec.toNat_ofInt, BitVec.toNat_sub]
  have := w.isLt
  have h2 : (2 : Word).toNat = 2 := rfl
  rw [h2]
  omega

theorem chk16_sub_error {w : Word} (h : w.toNat < 2) :
    chk16 ((w.toNat : Int) - 2) = .error .outOfBounds := chk16_error (by omega)

theorem memRead_ok {s : State} {addr : Int} (h : 0 ≤ addr ∧ addr ≤ 65535) :
    memRead s addr = .ok (s.mem.read addr.toNat) :=
  if_pos ((inRange16_iff _).mpr h)

theorem memRead_error {s : State} {addr : Int} (h : ¬(0 ≤ addr ∧ addr ≤ 65535)) :
    memRead s addr = .error .outOfBounds :=
  if_neg (mt (inRange16_iff _).mp h)

/-- The opcode fetch is always in range (R70). -/
theorem memRead_word (s : State) (w : Word) : memRead s w.toNat = .ok (s.byteAt w) := by
  have := w.isLt
  rw [memRead_ok (by omega)]; rfl

/-- A read at an offset above a 16-bit value, in range (R33). -/
theorem memRead_add_ok {s : State} {w : Word} {n : Nat} (h : w.toNat + n ≤ 65535) :
    memRead s ((w.toNat : Int) + n) = .ok (s.mem.read (w.toNat + n)) := by
  rw [memRead_ok (by omega), show ((w.toNat : Int) + n).toNat = w.toNat + n by omega]

theorem memRead_add_error {s : State} {w : Word} {n : Nat} (h : 65535 < w.toNat + n) :
    memRead s ((w.toNat : Int) + n) = .error .outOfBounds := memRead_error (by omega)

theorem memWrite_ok {s : State} {addr : Int} {v : Byte} (h : 0 ≤ addr ∧ addr ≤ 65535) :
    memWrite s addr v = .ok { s with mem := s.mem.write addr.toNat v } :=
  if_pos ((inRange16_iff _).mpr h)

/-! ### The end of a step -/

@[simp] theorem commit_ok (s t : State) : commit s (.ok t) = .next t := rfl

@[simp] theorem commit_error (s : State) (f : Fault) :
    commit s (.error f) = .next (raiseFault f s) := rfl

/-- The sequential end passes its check: the effects, and `pc` moved by the length. -/
theorem sequential_next {len : Nat} {s : State} (t : State) (h : s.pc.toNat + len ≤ 65535) :
    sequential len s t = .next { t with pc := s.pc + BitVec.ofNat 16 len } := by
  rw [sequential, chk16_add_ok h]; rfl

/-- The sequential end fails its check: the fault, and nothing of the effects. -/
theorem sequential_fault {len : Nat} {s : State} (t : State) (h : 65535 < s.pc.toNat + len) :
    sequential len s t = .next (raiseFault .outOfBounds s) := by
  rw [sequential, chk16_add_error h]; rfl

/-- Everything the sequential end can do. -/
theorem sequential_cases {len : Nat} {s t u : State} (h : sequential len s t = .next u) :
    (s.pc.toNat + len ≤ 65535 ∧ u = { t with pc := s.pc + BitVec.ofNat 16 len }) ∨
      (65535 < s.pc.toNat + len ∧ u = raiseFault .outOfBounds s) := by
  rcases Nat.lt_or_ge 65535 (s.pc.toNat + len) with hlt | hle
  · rw [sequential_fault t hlt] at h
    exact .inr ⟨hlt, by injection h with h; exact h.symm⟩
  · rw [sequential_next t hle] at h
    exact .inl ⟨hle, by injection h with h; exact h.symm⟩

/-! ### The stack -/

/-- A push with room: the high byte at `sp - 1`, the low byte at `sp - 2`, `sp` lowered by 2. -/
theorem pushBytes_ok (hi lo : Byte) {s : State} (h : 2 ≤ s.sp.toNat) :
    pushBytes hi lo s = .ok { s with
      mem := (s.mem.write (s.sp.toNat - 1) hi).write (s.sp.toNat - 2) lo
      sp := s.sp - 2 } := by
  have hsp := s.sp.isLt
  rw [pushBytes, chk16_sub_ok h, memWrite_ok (by omega)]
  simp only [bind, Except.bind]
  rw [memWrite_ok (by omega)]
  simp only [pure, Except.pure]
  rw [show ((s.sp.toNat : Int) - 1).toNat = s.sp.toNat - 1 by omega,
    show ((s.sp.toNat : Int) - 2).toNat = s.sp.toNat - 2 by omega]

theorem pushBytes_error (hi lo : Byte) {s : State} (h : s.sp.toNat < 2) :
    pushBytes hi lo s = .error .outOfBounds := by
  rw [pushBytes, chk16_sub_error h]; rfl

/-- A pop with room: the value with its low byte at `sp`, and `sp` raised by 2. -/
theorem popWord_ok {s : State} (h : s.sp.toNat + 2 ≤ 65535) :
    popWord s = .ok ({ s with sp := s.sp + 2 },
      wordOf (s.mem.read (s.sp.toNat + 1)) (s.mem.read s.sp.toNat)) := by
  have hc : chk16 ((s.sp.toNat : Int) + 2) = .ok (s.sp + 2) := chk16_add_ok (n := 2) h
  rw [popWord, memRead_ok (by omega), memRead_ok (by omega), hc]
  simp only [bind, Except.bind, pure, Except.pure]
  rw [show ((s.sp.toNat : Int) + 1).toNat = s.sp.toNat + 1 by omega, Int.toNat_natCast]

theorem popWord_error {s : State} (h : 65535 < s.sp.toNat + 2) :
    popWord s = .error .outOfBounds := by
  have hsp := s.sp.isLt
  have hc : chk16 ((s.sp.toNat : Int) + 2) = .error .outOfBounds := chk16_error (by omega)
  rw [popWord, memRead_ok (by omega), hc]
  by_cases h1 : s.sp.toNat + 1 ≤ 65535
  · rw [memRead_ok (by omega)]; simp only [bind, Except.bind]
  · rw [memRead_error (by omega)]; simp only [bind, Except.bind]

end Sys2Proof.Machine
end

