-- ==== Sys2Proof/Laws/Decode.lean ====
section
/-! SUPPORT. Small facts about the opcode map. -/

namespace Sys2Proof

@[simp] theorem Operand.ofSel_sel (o : Operand) : Operand.ofSel o.sel = o := by
  cases o with
  | reg r => cases r <;> rfl
  | mem => rfl

@[simp] theorem Pair.ofSel_sel (k : Pair) : Pair.ofSel k.sel = k := by cases k <;> rfl

@[simp] theorem StackPair.ofSel_sel (k : StackPair) : StackPair.ofSel k.sel = k := by
  cases k <;> rfl

/-- Every row but HLT's fixes bits that no other row allows: an opcode byte selects at most one row of
the map once 0x76 is removed (R72). -/
theorem opTable_rows_exclusive :
    ((dataRows ++ arithRows ++ controlRows).Pairwise fun r r' =>
      (r.mask &&& r'.mask) &&& r.pattern ≠ (r.mask &&& r'.mask) &&& r'.pattern) := by
  simp only [dataRows, arithRows, controlRows]
  decide

/-- One byte follows the opcode: the operand is that byte. -/
theorem decode_byte {op b1 : Byte} {rest : List Byte} (h : immKindOf op = .byte) :
    decode (op :: b1 :: rest) = .ok (assemble op (wordOf 0 b1), rest) := by
  simp [decode, h]

/-- Two bytes follow the opcode, the low one first. -/
theorem decode_word {op b1 b2 : Byte} {rest : List Byte} (h : immKindOf op = .word) :
    decode (op :: b1 :: b2 :: rest) = .ok (assemble op (wordOf b2 b1), rest) := by
  simp [decode, h]

/-- No byte follows the opcode. -/
theorem decode_none {op : Byte} {rest : List Byte} (h : immKindOf op = .none) :
    decode (op :: rest) = .ok (assemble op 0, rest) := by
  simp [decode, h]

end Sys2Proof
end

