-- ==== Sys2Proof/Laws/Flags.lean ====
section
/-! SUPPORT. What the flag computations and the 8-bit results leave, field by field. -/

namespace Sys2Proof.Machine

/-- The flag end of an 8-bit operation, as one state. -/
theorem aluFlags_eq (r : Byte) (cy : Bool) (s : State) :
    aluFlags r cy s = { s with
      flags := { s.flags.setZSP r with cy := cy, ac := Config.acDraw s.draws }
      draws := s.draws + 1 } := rfl

/-- The accumulator after ADI or ADD is the sum mod 256, as a bit-vector sum (R102, R105). -/
theorem addToA_eq (d : Byte) (s : State) :
    addToA d s = aluFlags (s.regs.a + d) (decide (256 ≤ s.regs.a.toNat + d.toNat))
      (s.setA (s.regs.a + d)) := by
  have h : BitVec.ofNat 8 (s.regs.a.toNat + d.toNat) = s.regs.a + d :=
    BitVec.eq_of_toNat_eq (by rw [BitVec.toNat_ofNat, BitVec.toNat_add])
  simp only [addToA, h, ge_iff_le]

/-- The difference CPI takes its flags from, as a bit-vector difference (R104). -/
theorem compareA_eq (d : Byte) (s : State) :
    compareA d s = aluFlags (s.regs.a - d) (decide (s.regs.a.toNat < d.toNat)) s := by
  have h : BitVec.ofInt 8 ((s.regs.a.toNat : Int) - d.toNat) = s.regs.a - d := by
    apply BitVec.eq_of_toNat_eq
    rw [BitVec.toNat_ofInt, BitVec.toNat_sub]
    have := s.regs.a.isLt
    have := d.isLt
    omega
  simp only [compareA, h, gt_iff_lt]

/-- The result of INR as a bit-vector sum (R107). -/
theorem stepOperand_inr (o : Operand) (s : State) :
    stepOperand 1 o s = drawAc (setZSP (rdOp o s + 1) (wrOp o (rdOp o s + 1) s)) := by
  have h : BitVec.ofInt 8 ((rdOp o s).toNat + 1) = rdOp o s + 1 := by
    apply BitVec.eq_of_toNat_eq
    have h1 : (1 : Byte).toNat = 1 := rfl
    rw [BitVec.toNat_ofInt, BitVec.toNat_add, h1]
    omega
  simp only [stepOperand, h]

/-- The result of DCR as a bit-vector difference (R108). -/
theorem stepOperand_dcr (o : Operand) (s : State) :
    stepOperand (-1) o s = drawAc (setZSP (rdOp o s - 1) (wrOp o (rdOp o s - 1) s)) := by
  have h : BitVec.ofInt 8 ((rdOp o s).toNat + -1) = rdOp o s - 1 := by
    apply BitVec.eq_of_toNat_eq
    have h1 : (1 : Byte).toNat = 1 := rfl
    rw [BitVec.toNat_ofInt, BitVec.toNat_sub, h1]
    have := (rdOp o s).isLt
    omega
  simp only [stepOperand, h]

@[simp] theorem Flags.setZSP_cy (f : Flags) (r : Byte) : (f.setZSP r).cy = f.cy := rfl
@[simp] theorem Flags.setZSP_ac (f : Flags) (r : Byte) : (f.setZSP r).ac = f.ac := rfl

/-- Unpacking the flags byte of the flags gives them back (R16). -/
@[simp] theorem Flags.ofByte_toByte (f : Flags) : Flags.ofByte f.toByte = f := by
  rcases f with ⟨_ | _, _ | _, _ | _, _ | _, _ | _⟩ <;> rfl

end Sys2Proof.Machine
end

