-- ==== Sys2Proof/Laws/PerInstr.lean ====
section
/-! SUPPORT. Facts about every instruction, one lemma for each constructor. -/

namespace Sys2Proof.Laws.EncodedLength

/-- The encoding of the instruction is as long as its opcode byte says (R50): one byte, and what follows
it. -/
def Statement (i : Instr) : Prop :=
  i.wellFormed = true → ∃ op rest, encode i = op :: rest ∧ rest.length = (immKindOf op).size

theorem mov (dst src : Operand) : Statement (.mov dst src) := by
  intro h
  refine ⟨_, _, rfl, ?_⟩
  rcases dst with r' | _ <;> rcases src with r | _
  · cases r' <;> cases r <;> rfl
  · cases r' <;> rfl
  · cases r <;> rfl
  · simp [Instr.wellFormed] at h

theorem mvi (dst : Operand) (d8 : Byte) : Statement (.mvi dst d8) := by
  intro _
  refine ⟨_, _, rfl, ?_⟩
  rcases dst with r | _
  · cases r <;> rfl
  · rfl

theorem lxi (rp : Pair) (d16 : Word) : Statement (.lxi rp d16) := fun _ => ⟨_, _, rfl, by cases rp <;> rfl⟩

theorem lda (a16 : Word) : Statement (.lda a16) := fun _ => ⟨_, _, rfl, rfl⟩

theorem sta (a16 : Word) : Statement (.sta a16) := fun _ => ⟨_, _, rfl, rfl⟩

theorem ldax (rp : IndexPair) : Statement (.ldax rp) := fun _ => ⟨_, _, rfl, by cases rp <;> rfl⟩

theorem xchg : Statement (.xchg) := fun _ => ⟨_, _, rfl, rfl⟩

theorem adi (d8 : Byte) : Statement (.adi d8) := fun _ => ⟨_, _, rfl, rfl⟩

theorem ani (d8 : Byte) : Statement (.ani d8) := fun _ => ⟨_, _, rfl, rfl⟩

theorem cpi (d8 : Byte) : Statement (.cpi d8) := fun _ => ⟨_, _, rfl, rfl⟩

theorem add (src : Operand) : Statement (.add src) := by
  intro _
  refine ⟨_, _, rfl, ?_⟩
  rcases src with r | _
  · cases r <;> rfl
  · rfl

theorem dad (rp : Pair) : Statement (.dad rp) := fun _ => ⟨_, _, rfl, by cases rp <;> rfl⟩

theorem inr (dst : Operand) : Statement (.inr dst) := by
  intro _
  refine ⟨_, _, rfl, ?_⟩
  rcases dst with r | _
  · cases r <;> rfl
  · rfl

theorem dcr (dst : Operand) : Statement (.dcr dst) := by
  intro _
  refine ⟨_, _, rfl, ?_⟩
  rcases dst with r | _
  · cases r <;> rfl
  · rfl

theorem inx (rp : Pair) : Statement (.inx rp) := fun _ => ⟨_, _, rfl, by cases rp <;> rfl⟩

theorem ana (src : Operand) : Statement (.ana src) := by
  intro _
  refine ⟨_, _, rfl, ?_⟩
  rcases src with r | _
  · cases r <;> rfl
  · rfl

theorem xra (src : Operand) : Statement (.xra src) := by
  intro _
  refine ⟨_, _, rfl, ?_⟩
  rcases src with r | _
  · cases r <;> rfl
  · rfl

theorem rlc : Statement (.rlc) := fun _ => ⟨_, _, rfl, rfl⟩

theorem rrc : Statement (.rrc) := fun _ => ⟨_, _, rfl, rfl⟩

theorem cma : Statement (.cma) := fun _ => ⟨_, _, rfl, rfl⟩

theorem stc : Statement (.stc) := fun _ => ⟨_, _, rfl, rfl⟩

theorem cmc : Statement (.cmc) := fun _ => ⟨_, _, rfl, rfl⟩

theorem push (rp : StackPair) : Statement (.push rp) := fun _ => ⟨_, _, rfl, by cases rp <;> rfl⟩

theorem pop (rp : StackPair) : Statement (.pop rp) := fun _ => ⟨_, _, rfl, by cases rp <;> rfl⟩

theorem jmp (a16 : Word) : Statement (.jmp a16) := fun _ => ⟨_, _, rfl, rfl⟩

theorem jnz (a16 : Word) : Statement (.jnz a16) := fun _ => ⟨_, _, rfl, rfl⟩

theorem call (a16 : Word) : Statement (.call a16) := fun _ => ⟨_, _, rfl, rfl⟩

theorem ret : Statement (.ret) := fun _ => ⟨_, _, rfl, rfl⟩

theorem outPort (port : Byte) : Statement (.outPort port) := fun _ => ⟨_, _, rfl, rfl⟩

theorem inPort (port : Byte) : Statement (.inPort port) := fun _ => ⟨_, _, rfl, rfl⟩

theorem ei : Statement (.ei) := fun _ => ⟨_, _, rfl, rfl⟩

theorem di : Statement (.di) := fun _ => ⟨_, _, rfl, rfl⟩

theorem hlt : Statement (.hlt) := fun _ => ⟨_, _, rfl, rfl⟩

theorem undefined (op : Byte) : Statement (.undefined op) := by
  intro h
  have key : ∀ op ∈ undefinedOpcodes, immKindOf op = .none := by decide
  refine ⟨op, [], rfl, ?_⟩
  rw [key op (by simpa [Instr.wellFormed] using h)]
  rfl

end Sys2Proof.Laws.EncodedLength
end

