-- ==== Sys2Proof/Laws/Step.lean ====
section
/-! SUPPORT. What a step does around `exec`. -/

namespace Sys2Proof.Machine

theorem State.running_iff (s : State) : s.running = true ↔ s.fault = none ∧ s.halted = false := by
  simp [State.running]

theorem step_of_not_running {s : State} (h : s.running = false) : step s = .next s := by
  simp [step, h]

theorem step_of_fetch {s : State} {i : Instr} (h : s.running = true) (hf : fetch s = .ok i) :
    step s = exec i s := by
  simp [step, h, hf]

theorem step_of_fetch_error {s : State} {f : Fault} (h : s.running = true)
    (hf : fetch s = .error f) : step s = .next (raiseFault f s) := by
  simp [step, h, hf]

/-- A run whose first step answers a state goes on from it. -/
theorem run_succ {M : Host.Core} {s t : M.State} (k : Nat) (h : M.step s = .next t) :
    M.run (k + 1) s = M.run k t := by
  simp only [Host.Core.run, h]

/-! ### Everything the fetch can do, by what follows the opcode byte -/

theorem imm8_ok {s : State} (h : s.pc.toNat + 1 ≤ 65535) :
    imm8 s = .ok (s.mem.read (s.pc.toNat + 1)) := by
  rw [imm8, memRead_ok (by omega), show ((s.pc.toNat : Int) + 1).toNat = s.pc.toNat + 1 by omega]

theorem imm16_ok {s : State} (h : s.pc.toNat + 2 ≤ 65535) :
    imm16 s = .ok (wordOf (s.mem.read (s.pc.toNat + 2)) (s.mem.read (s.pc.toNat + 1))) := by
  rw [imm16, memRead_ok (by omega), memRead_ok (by omega)]
  simp only [bind, Except.bind, pure, Except.pure]
  rw [show ((s.pc.toNat : Int) + 1).toNat = s.pc.toNat + 1 by omega,
    show ((s.pc.toNat : Int) + 2).toNat = s.pc.toNat + 2 by omega]

theorem fetch_none {s : State} (h : immKindOf (s.byteAt s.pc) = .none) :
    fetch s = .ok (assemble (s.byteAt s.pc) 0) := by
  simp only [fetch, memRead_word, bind, Except.bind, h, pure, Except.pure]

theorem fetch_byte {s : State} (h : immKindOf (s.byteAt s.pc) = .byte)
    (hpc : s.pc.toNat + 1 ≤ 65535) :
    fetch s = .ok (assemble (s.byteAt s.pc) (wordOf 0 (s.mem.read (s.pc.toNat + 1)))) := by
  simp only [fetch, memRead_word, bind, Except.bind, h, imm8_ok hpc, pure, Except.pure]

theorem fetch_word {s : State} (h : immKindOf (s.byteAt s.pc) = .word)
    (hpc : s.pc.toNat + 2 ≤ 65535) :
    fetch s = .ok (assemble (s.byteAt s.pc)
      (wordOf (s.mem.read (s.pc.toNat + 2)) (s.mem.read (s.pc.toNat + 1)))) := by
  simp only [fetch, memRead_word, bind, Except.bind, h, imm16_ok hpc, pure, Except.pure]

theorem fetch_error {s : State} (h : 65535 < s.pc.toNat + (immKindOf (s.byteAt s.pc)).size) :
    fetch s = .error .outOfBounds := by
  have hpc := s.pc.isLt
  have h2 : 65535 < s.pc.toNat + 2 → imm16 s = .error .outOfBounds := fun h2 => by
    simp only [imm16, bind, Except.bind]
    rw [memRead_error (addr := (s.pc.toNat : Int) + 2) (by omega)]
    by_cases h1 : s.pc.toNat + 1 ≤ 65535
    · rw [memRead_ok (by omega)]
    · rw [memRead_error (by omega)]
  cases hk : immKindOf (s.byteAt s.pc) with
  | none => rw [hk] at h; simp only [ImmKind.size] at h; omega
  | byte =>
    rw [hk] at h; simp only [ImmKind.size] at h
    have h1 : imm8 s = .error .outOfBounds := memRead_error (by omega)
    simp only [fetch, memRead_word, bind, Except.bind, hk, h1]
  | word =>
    rw [hk] at h; simp only [ImmKind.size] at h
    simp only [fetch, memRead_word, bind, Except.bind, hk, h2 h]

end Sys2Proof.Machine
end

