-- ==== Sys2Proof/Tests/Slice0.lean ====
section
/-! SUPPORT. Tests and witnesses. The expected results are the spec's: the encodings of R55 and the
vectors of `95_test_vectors.md` (their ids stand in the comments). `witness_<Name>` shows a concrete
state and operands that meet the hypotheses of `Obligations.<Name>`, clause by clause at the boundary
values. -/

namespace Sys2Proof.Tests

open Sys2Proof Sys2Proof.Machine

/-! ### Helpers -/

/-- The next state of an outcome. -/
def nextOf (o : Host.Outcome State Fault Refusal) : Option State :=
  match o with
  | .next t => some t
  | .fault _ => none
  | .refused _ => none

/-- The reset state with bytes stored at an address and `pc` there. -/
def codeAt (pc : Word) (bytes : List Byte) : State :=
  { State.reset with pc := pc, mem := Memory.writeBytes [] pc.toNat bytes }

/-- The reset state at a given `pc` and `sp`. -/
def atPcSp (pc sp : Word) : State := { State.reset with pc := pc, sp := sp }

/-- The next state of one step. -/
def after (s : State) : Option State := nextOf (step s)

/-- Executing the instruction answers a next state without a fault. -/
def completes (i : Instr) (s : State) : Bool := (nextOf (exec i s)).any (·.fault.isNone)

/-- Executing the instruction takes the fault `OutOfBounds`. -/
def faultsOob (i : Instr) (s : State) : Bool :=
  (nextOf (exec i s)).any (·.fault == some .outOfBounds)

/-- A one-byte sequential instruction completes at `pc` = 0xFFFE and faults at 0xFFFF, with `sp` = 0x2400. -/
def bound1 (i : Instr) : Bool :=
  completes i (atPcSp 0xFFFE 0x2400) && faultsOob i (atPcSp 0xFFFF 0x2400)

/-- A two-byte sequential instruction completes at `pc` = 0xFFFD and faults above. -/
def bound2 (i : Instr) : Bool :=
  completes i (atPcSp 0xFFFD 0x2400) && faultsOob i (atPcSp 0xFFFE 0x2400)
    && faultsOob i (atPcSp 0xFFFF 0x2400)

/-- A three-byte sequential instruction completes at `pc` = 0xFFFC and faults above. -/
def bound3 (i : Instr) : Bool :=
  completes i (atPcSp 0xFFFC 0x2400) && faultsOob i (atPcSp 0xFFFD 0x2400)
    && faultsOob i (atPcSp 0xFFFF 0x2400)

/-- The instruction read from bytes, if they hold exactly one. -/
def readAll (bytes : List Byte) : Option Instr :=
  match decode bytes with
  | .ok (i, []) => some i
  | .ok (_, _ :: _) => none
  | .error _ => none

/-- The flags but `ac`: `cy`, `z`, `s`, `p`. -/
def czsp (f : Flags) : List Bool := [f.cy, f.z, f.s, f.p]

/-- `A`, the flags but `ac`, and `pc`. -/
def accView (s : State) : Byte × List Bool × Word := (s.regs.a, czsp s.flags, s.pc)

/-! ### WellFormed -/

theorem test_wellFormed_refuses_mov_m_m : (Instr.mov .mem .mem).wellFormed = false := by decide
theorem test_wellFormed_refuses_defined_byte : (Instr.undefined 0x40).wellFormed = false := by decide
theorem test_wellFormed_accepts :
    (Instr.mov .mem (.reg .a)).wellFormed = true ∧ (Instr.undefined 0x00).wellFormed = true := by
  decide

/-! ### Decode: one word or more per constructor, bit by bit from R51 to R55 -/

theorem test_decode_data_movement :
    [[0b01000001], [0b01110111], [0b00111110, 0x05], [0b00110110, 0xEE], [0b00100001, 0x34, 0x12],
      [0b00110001, 0x00, 0x24], [0b00111010, 0x34, 0x12], [0b00110010, 0x00, 0x30], [0b00001010],
      [0b00011010], [0b11101011]].map readAll =
    [some (.mov (.reg .b) (.reg .c)), some (.mov .mem (.reg .a)), some (.mvi (.reg .a) 0x05),
      some (.mvi .mem 0xEE), some (.lxi .hl 0x1234), some (.lxi .sp 0x2400), some (.lda 0x1234),
      some (.sta 0x3000), some (.ldax .bc), some (.ldax .de), some .xchg] := by decide

theorem test_decode_arithmetic :
    [[0b11000110, 0x01], [0b11100110, 0x0F], [0b11111110, 0x05], [0b10000111], [0b00111001],
      [0b00110100], [0b00001101], [0b00110011], [0b10100000], [0b10101110], [0b00000111],
      [0b00001111], [0b00101111], [0b00110111], [0b00111111]].map readAll =
    [some (.adi 0x01), some (.ani 0x0F), some (.cpi 0x05), some (.add (.reg .a)), some (.dad .sp),
      some (.inr .mem), some (.dcr (.reg .c)), some (.inx .sp), some (.ana (.reg .b)),
      some (.xra .mem), some .rlc, some .rrc, some .cma, some .stc, some .cmc] := by decide

theorem test_decode_control :
    [[0b11110101], [0b11100001], [0b11000011, 0x34, 0x12], [0b11000010, 0x34, 0x12],
      [0b11001101, 0x34, 0x12], [0b11001001], [0b11010011, 0x10], [0b11011011, 0x10], [0b11111011],
      [0b11110011], [0b01110110]].map readAll =
    [some (.push .psw), some (.pop .hl), some (.jmp 0x1234), some (.jnz 0x1234),
      some (.call 0x1234), some .ret, some (.outPort 0x10), some (.inPort 0x10), some .ei, some .di,
      some .hlt] := by decide

-- R53: 0x2A is undefined, not LDAX H. R56: NOP and RST 7 of the full 8080 are undefined here.
theorem test_decode_undefined :
    [[0x00], [0xFF], [0x2A], [0x02], [0xCB]].map readAll =
      [some (.undefined 0x00), some (.undefined 0xFF), some (.undefined 0x2A), some (.undefined 0x02),
        some (.undefined 0xCB)] := by decide

theorem test_decode_refuses_what_is_no_instruction :
    (decode []).toOption = none ∧ (decode [0x3E]).toOption = none ∧
    (decode [0xC3, 0x34]).toOption = none := by decide

-- Bit 0 of the table's word is the least significant bit of the first byte.
theorem test_decodeTableWord :
    decodeTableWord 8 0x41 = some (.mov (.reg .b) (.reg .c)) ∧
    decodeTableWord 16 0x053E = some (.mvi (.reg .a) 0x05) ∧
    decodeTableWord 24 0x123421 = some (.lxi .hl 0x1234) ∧
    decodeTableWord 8 0x3E = some (.mvi (.reg .a) 0) := by decide

theorem test_withFetchWord :
    (after (State.reset.withFetchWord 16 0x053E)).map (fun t => (t.regs.a, t.pc)) =
      some (0x05, 0x0002) ∧
    (after (State.reset.withFetchWord 8 0x00)).map (·.fault) =
      some (some (.unimplementedOpcode 0x00)) := by decide

/-! ### Data movement -/

-- V-MOV-3, V-MOV-4
theorem test_mov_reads_m :
    (after (codeAt 0 [0x7E])).map (fun t => (t.regs.a, t.pc)) = some (0x7E, 0x0001) ∧
    (after { codeAt 0 [0x66, 0, 0, 0xAB] with regs := ⟨0, 0, 0, 0, 0x00, 0x03, 0⟩ }).map
      (fun t => (t.regs.h, t.regs.l)) = some (0xAB, 0x03) := by decide
-- V-MOV-5
theorem test_mov_writes_m :
    (after { codeAt 0 [0x74] with regs := ⟨0, 0, 0, 0, 0x12, 0x34, 0⟩ }).map
      (fun t => (t.mem, t.pc)) = some ([(0, 0x74), (0x1234, 0x12)], 0x0001) := by decide
-- V-MVI-1
theorem test_mvi_register :
    (after (codeAt 0 [0x3E, 0x05])).map (fun t => (t.regs.a, t.pc)) = some (0x05, 0x0002) := by decide
-- V-MVI-3
theorem test_mvi_m_over_its_operand :
    (after { codeAt 0 [0x36, 0xEE] with regs := ⟨0, 0, 0, 0, 0x00, 0x01, 0⟩ }).map
      (fun t => (t.mem.read 1, t.pc)) = some (0xEE, 0x0002) := by decide
-- S2, V-LXI-1
theorem test_lxi :
    (after (codeAt 0 [0x21, 0x34, 0x12])).map (fun t => (t.regs.h, t.regs.l, t.pc)) =
      some (0x12, 0x34, 0x0003) ∧
    (after (codeAt 0 [0x31, 0x00, 0x24])).map (·.sp) = some 0x2400 := by decide
-- V-LDA-1
theorem test_lda :
    (after { codeAt 0 [0x3A, 0x02, 0x00] with regs := ⟨0, 0, 0, 0, 0, 0, 0x55⟩ }).map
      (fun t => (t.regs.a, t.pc)) = some (0x00, 0x0003) := by decide
-- V-STA-2
theorem test_sta :
    (after { codeAt 0 [0x32, 0x01, 0x00] with regs := ⟨0, 0, 0, 0, 0, 0, 0x42⟩ }).map
      (fun t => (t.mem, t.pc)) = some ([(0, 0x32), (1, 0x42)], 0x0003) := by decide
-- V-LDAX-1, V-LDAX-2
theorem test_ldax :
    (after (codeAt 0 [0x0A])).map (·.regs.a) = some 0x0A ∧
    (after { codeAt 0 [0x1A] with
      regs := ⟨0, 0, 0x12, 0x34, 0, 0, 0⟩, mem := [(0, 0x1A), (0x1234, 0xCD)] }).map
      (fun t => (t.regs.a, t.pc)) = some (0xCD, 0x0001) := by decide
-- V-XCHG-1
theorem test_xchg :
    (after { codeAt 0 [0xEB] with regs := ⟨0, 0, 0x11, 0x22, 0x33, 0x44, 0⟩ }).map
      (fun t => (t.regs, t.pc)) = some (⟨0, 0, 0x33, 0x44, 0x11, 0x22, 0⟩, 0x0001) := by decide

/-! ### Arithmetic and logical: `ac` is never looked at -/

/-- The bytes at 0, with a value of A and of the carry. -/
def acc (bytes : List Byte) (a : Byte) (cy : Bool) : State :=
  { codeAt 0 bytes with
    regs := ⟨0, 0, 0, 0, 0, 0, a⟩, flags := ⟨false, false, false, cy, false⟩ }

-- V-ADI-1, V-ADI-4
theorem test_adi :
    (after (acc [0xC6, 0x01] 0xFF false)).map accView =
      some (0x00, [true, true, false, true], 0x0002) ∧
    (after (acc [0xC6, 0x00] 0x00 true)).map accView =
      some (0x00, [false, true, false, true], 0x0002) := by decide
-- V-ANI-1, V-ANI-2
theorem test_ani :
    (after (acc [0xE6, 0x0F] 0xF0 true)).map accView =
      some (0x00, [false, true, false, true], 0x0002) ∧
    (after (acc [0xE6, 0x81] 0xFF false)).map accView =
      some (0x81, [false, false, true, true], 0x0002) := by decide
-- V-CPI-2, V-CPI-3
theorem test_cpi :
    (after (acc [0xFE, 0x06] 0x05 false)).map accView =
      some (0x05, [true, false, true, true], 0x0002) ∧
    (after (acc [0xFE, 0xFF] 0x00 false)).map accView =
      some (0x00, [true, false, false, false], 0x0002) := by decide
-- V-ADD-2
theorem test_add_a :
    (after (acc [0x87] 0x90 false)).map accView = some (0x20, [true, false, false, false], 0x0001) := by
  decide
-- V-ADD-3
theorem test_add_m :
    (after { State.reset with
      regs := ⟨0, 0, 0, 0, 0x20, 0x10, 0x01⟩, mem := [(0, 0x86), (0x2010, 0x7F)] }).map accView =
      some (0x80, [false, false, true, false], 0x0001) := by decide
-- V-DAD-1, V-DAD-3
theorem test_dad :
    (after { codeAt 0 [0x09] with regs := ⟨0x00, 0x01, 0, 0, 0xFF, 0xFF, 0⟩ }).map
      (fun t => (t.regs.h, t.regs.l, t.flags)) =
      some (0x00, 0x00, ⟨false, false, false, true, false⟩) ∧
    (after { codeAt 0 [0x39] with
      regs := ⟨0, 0, 0, 0, 0x12, 0x34, 0⟩, sp := 0x1111, flags := ⟨false, false, false, true, false⟩ }).map
      (fun t => (t.regs.h, t.regs.l, t.flags.cy, t.sp)) = some (0x23, 0x45, false, 0x1111) := by decide
-- V-INR-1, V-INR-3
theorem test_inr :
    (after (acc [0x3C] 0xFF true)).map accView = some (0x00, [true, true, false, true], 0x0001) ∧
    (after { State.reset with
      regs := ⟨0, 0, 0, 0, 0x30, 0x00, 0⟩, mem := [(0, 0x34), (0x3000, 0x0F)] }).map
      (fun t => (t.mem.read 0x3000, czsp t.flags)) = some (0x10, [false, false, false, false]) := by
  decide
-- V-DCR-1, V-DCR-3
theorem test_dcr :
    (after (codeAt 0 [0x05])).map (fun t => (t.regs.b, czsp t.flags)) =
      some (0xFF, [false, false, true, true]) ∧
    (after { State.reset with
      regs := ⟨0, 0, 0, 0, 0x30, 0x00, 0⟩, mem := [(0, 0x35), (0x3000, 0x80)] }).map
      (fun t => (t.mem.read 0x3000, czsp t.flags)) = some (0x7F, [false, false, false, false]) := by
  decide
-- V-INX-1, V-INX-2
theorem test_inx :
    (after { codeAt 0 [0x33] with sp := 0xFFFF, flags := ⟨false, true, false, true, false⟩ }).map
      (fun t => (t.sp, t.flags, t.pc)) = some (0x0000, ⟨false, true, false, true, false⟩, 0x0001) ∧
    (after { codeAt 0 [0x23] with regs := ⟨0, 0, 0, 0, 0x12, 0xFF, 0⟩ }).map
      (fun t => (t.regs.h, t.regs.l)) = some (0x13, 0x00) := by decide
-- V-ANA-2
theorem test_ana :
    (after { codeAt 0 [0xA0] with regs := ⟨0xAA, 0, 0, 0, 0, 0, 0xCC⟩ }).map accView =
      some (0x88, [false, false, true, true], 0x0001) := by decide
-- V-XRA-2
theorem test_xra :
    (after { State.reset with
      regs := ⟨0, 0, 0, 0, 0x00, 0x05, 0xFF⟩, mem := [(0, 0xAE), (5, 0x0F)] }).map accView =
      some (0xF0, [false, false, true, true], 0x0001) := by decide
-- V-RLC-1
theorem test_rlc :
    (after { acc [0x07] 0x81 false with flags := ⟨false, true, true, false, true⟩ }).map
      (fun t => (t.regs.a, t.flags)) = some (0x03, ⟨false, true, true, true, true⟩) := by decide
-- V-RRC-1, V-RRC-2
theorem test_rrc :
    (after (acc [0x0F] 0x01 false)).map (fun t => (t.regs.a, t.flags.cy)) = some (0x80, true) ∧
    (after (acc [0x0F] 0x80 true)).map (fun t => (t.regs.a, t.flags.cy)) = some (0x40, false) := by
  decide
-- V-CMA-1
theorem test_cma :
    (after { acc [0x2F] 0x5A false with flags := ⟨false, true, false, true, false⟩ }).map
      (fun t => (t.regs.a, t.flags)) = some (0xA5, ⟨false, true, false, true, false⟩) := by decide
-- V-STC-1, V-CMC-1, V-CMC-2
theorem test_stc_cmc :
    (after (codeAt 0 [0x37])).map (fun t => (t.flags, t.pc)) =
      some (⟨false, false, false, true, false⟩, 0x0001) ∧
    (after (acc [0x3F] 0 true)).map (·.flags.cy) = some false ∧
    (after (acc [0x3F] 0 false)).map (·.flags.cy) = some true := by decide

/-! ### Stack and control -/

-- V-PUSH-1, V-PUSH-5
theorem test_push :
    (after { codeAt 0 [0xF5] with
      regs := ⟨0, 0, 0, 0, 0, 0, 0xAB⟩, flags := ⟨true, false, true, true, true⟩, sp := 0x2400 }).map
      (fun t => (t.mem, t.sp, t.pc)) =
      some ([(0, 0xF5), (0x23FE, 0x97), (0x23FF, 0xAB)], 0x23FE, 0x0001) ∧
    (after { codeAt 0 [0xC5] with regs := ⟨0xC5, 0x01, 0, 0, 0, 0, 0⟩, sp := 0x0002 }).map
      (fun t => (t.mem, t.sp, t.pc)) = some ([(0, 0x01), (1, 0xC5)], 0x0000, 0x0001) := by decide
-- V-PUSH-3
theorem test_push_below_two_changes_only_the_latch :
    after { codeAt 0 [0xC5] with sp := 0x0001 } =
      some { codeAt 0 [0xC5] with sp := 0x0001, fault := some .outOfBounds } := by decide
-- V-POP-2, V-POP-6
theorem test_pop :
    (after { State.reset with
      sp := 0x2000, flags := ⟨true, true, true, true, true⟩, mem := [(0, 0xF1), (0x2000, 0x28)] }).map
      (fun t => (t.regs.a, t.flags, t.sp)) = some (0x00, ⟨false, false, false, false, false⟩, 0x2002) ∧
    (after { State.reset with
      sp := 0xFFFD, mem := [(0, 0xC1), (0xFFFD, 0x11), (0xFFFE, 0x22)] }).map
      (fun t => (t.regs.b, t.regs.c, t.sp, t.pc)) = some (0x22, 0x11, 0xFFFF, 0x0001) := by decide
-- V-POP-5
theorem test_pop_new_sp_out_of_range :
    (after { codeAt 0 [0xC1] with sp := 0xFFFE }).map (fun t => (t.fault, t.sp, t.pc)) =
      some (some .outOfBounds, 0xFFFE, 0x0000) := by decide
-- V-JMP-1, V-F-9
theorem test_jmp :
    (after (codeAt 0 [0xC3, 0x34, 0x12])).map (·.pc) = some 0x1234 ∧
    (after (codeAt 0xFFFD [0xC3, 0x00, 0x10])).map (fun t => (t.pc, t.fault)) =
      some (0x1000, none) := by decide
-- V-JNZ-1, V-JNZ-2
theorem test_jnz :
    (after (codeAt 0 [0xC2, 0x34, 0x12])).map (·.pc) = some 0x1234 ∧
    (after { codeAt 0 [0xC2, 0x34, 0x12] with flags := ⟨false, true, false, false, false⟩ }).map
      (·.pc) = some 0x0003 := by decide
-- V-CALL-3, V-F-11
theorem test_call :
    (after { codeAt 0 [0xCD, 0x34, 0x12] with sp := 0x0003 }).map (fun t => (t.mem, t.sp, t.pc)) =
      some ([(0, 0xCD), (1, 0x03)], 0x0001, 0x1234) ∧
    (after { codeAt 0xFFFD [0xCD, 0x00, 0x10] with sp := 0x2400 }).map
      (fun t => (t.fault, t.sp, t.pc)) = some (some .outOfBounds, 0x2400, 0xFFFD) := by decide
-- V-RET-1, V-RET-2
theorem test_ret :
    (after { State.reset with sp := 0x23FE, mem := [(0, 0xC9), (0x23FE, 0x03)] }).map
      (fun t => (t.pc, t.sp)) = some (0x0003, 0x2400) ∧
    (after (codeAt 0 [0xC9])).map (fun t => (t.pc, t.sp, t.fault)) =
      some (0x00C9, 0x0002, none) := by decide
-- V-OUT-1, V-IN-1
theorem test_out_in :
    (after (acc [0xD3, 0x10] 0x55 false)).map (fun t => (t.pc, t.regs.a)) = some (0x0002, 0x55) ∧
    (after (acc [0xDB, 0x10] 0x55 false)).map (fun t => (t.pc, t.regs.a)) = some (0x0002, 0x55) := by
  decide
-- V-EI-1, V-DI-1
theorem test_ei_di :
    (after (codeAt 0 [0xFB])).map (fun t => (t.inte, t.pc)) = some (true, 0x0001) ∧
    (after { codeAt 0 [0xF3] with inte := true }).map (fun t => (t.inte, t.pc)) =
      some (false, 0x0001) := by decide
-- V-HLT-1, V-F-5
theorem test_hlt :
    (after (codeAt 0 [0x76])).map (fun t => (t.halted, t.pc)) = some (true, 0x0001) ∧
    (after (codeAt 0xFFFF [0x76])).map (fun t => (t.halted, t.fault)) =
      some (false, some .outOfBounds) := by decide

/-! ### Faults -/

-- V-F-1, V-F-14
theorem test_undefined :
    after State.reset = some { State.reset with fault := some (.unimplementedOpcode 0x00) } ∧
    (after (codeAt 0xFFFF [0x00])).map (·.fault) = some (some (.unimplementedOpcode 0x00)) := by decide
-- V-F-6, V-F-7, V-F-8
theorem test_mvi_at_the_top :
    (after (codeAt 0xFFFF [0x06])).map (·.fault) = some (some .outOfBounds) ∧
    (after (codeAt 0xFFFE [0x06, 0x01])).map (fun t => (t.fault, t.regs.b)) =
      some (some .outOfBounds, 0x00) ∧
    (after (codeAt 0xFFFD [0x06, 0x01])).map (fun t => (t.fault, t.regs.b, t.pc)) =
      some (none, 0x01, 0xFFFF) := by decide
-- V-F-12, V-F-13
theorem test_jnz_at_the_top :
    (after { codeAt 0xFFFD [0xC2, 0x00, 0x10] with flags := ⟨false, true, false, false, false⟩ }).map
      (·.fault) = some (some .outOfBounds) ∧
    (after (codeAt 0xFFFD [0xC2, 0x00, 0x10])).map (fun t => (t.pc, t.fault)) =
      some (0x1000, none) := by decide
-- R171, R172
theorem test_load_once :
    (hostMove (.load [0x3E, 0x07]) Session.initial).1.machine.mem = [(0, 0x3E), (1, 0x07)] ∧
    (hostMove (.load []) (hostMove (.load [0x3E]) Session.initial).1).2 =
      .refused .loadNotAfterReset := by decide

/-! ### Witnesses: reset, load, encoding -/

theorem witness_LoadPlacesTheImageFromAddressZero :
    Session.initial.loadable = true ∧ Session.initial.machine.mem.wf = true ∧
    [(0x3E : Byte), 0x07].length ≤ 65536 ∧ (List.replicate 65536 (0 : Byte)).length ≤ 65536 ∧
    65536 < (List.replicate 65537 (0 : Byte)).length := by
  refine ⟨by decide, by decide, by decide, ?_, ?_⟩ <;> rw [List.length_replicate]; decide
theorem witness_LoadIsRefusedOutsideTheResetState :
    (hostMove .step Session.initial).1.loadable = false ∧
    hostMove (.load [0x3E]) Session.initial =
      ({ machine := { State.reset with mem := [(0, 0x3E)] }, loadable := false }, .done) ∧
    HostMove.step ≠ .reset ∧ hostMove .inspect Session.initial =
      (Session.initial, .view ⟨State.reset.regs, State.reset.flags, 0, 0⟩) := by decide
theorem witness_DecodeOfEncodeIsTheInstruction :
    (Instr.lxi .sp 0xFFFF).wellFormed = true ∧ (Instr.undefined 0xFF).wellFormed = true := by decide
theorem witness_EncodeOfDecodeIsTheBytes :
    decode [0x21, 0x34, 0x12, 0x76] = .ok (.lxi .hl 0x1234, [0x76]) := by rfl

/-! ### Witnesses: the step -/

theorem witness_StepRunsTheDecodedInstruction :
    (codeAt 0xFFFD [0xC3, 0x00, 0x10]).fault = none ∧
    (codeAt 0xFFFD [0xC3, 0x00, 0x10]).halted = false ∧
    (codeAt 0xFFFD [0xC3, 0x00, 0x10]).pc.toNat + 3 ≤ 65536 ∧
    decode ((List.range 3).map fun k => (codeAt 0xFFFD [0xC3, 0x00, 0x10]).mem.read
      ((codeAt 0xFFFD [0xC3, 0x00, 0x10]).pc.toNat + k)) = .ok (.jmp 0x1000, []) :=
  ⟨rfl, rfl, by decide, rfl⟩
theorem witness_StepWithAMissingOperandByteFaults :
    (codeAt 0xFFFF [0x06]).fault = none ∧ (codeAt 0xFFFF [0x06]).halted = false ∧
    65535 < (codeAt 0xFFFF [0x06]).pc.toNat +
      (immKindOf ((codeAt 0xFFFF [0x06]).byteAt 0xFFFF)).size ∧
    65535 < (codeAt 0xFFFE [0xC3]).pc.toNat +
      (immKindOf ((codeAt 0xFFFE [0xC3]).byteAt 0xFFFE)).size := by decide
theorem witness_UndefinedByteTakesItsFault :
    (codeAt 0xFFFF [0xFF]).fault = none ∧ (codeAt 0xFFFF [0xFF]).halted = false ∧
    (codeAt 0xFFFF [0xFF]).byteAt (codeAt 0xFFFF [0xFF]).pc ∈ undefinedOpcodes := by decide
theorem witness_TerminalMachineNeverMoves :
    { State.reset with halted := true }.terminal ∧
    { State.reset with fault := some .outOfBounds }.terminal := by
  exact ⟨.inr rfl, .inl (by decide)⟩
theorem witness_StepAnswersAndHaltsExactlyOnHlt :
    (codeAt 0xFFFE [0x76]).fault = none ∧ (codeAt 0xFFFE [0x76]).halted = false ∧
    (codeAt 0xFFFE [0x76]).byteAt 0xFFFE = 0x76 ∧ (codeAt 0xFFFE [0x76]).pc ≠ 0xFFFF ∧
    (after (codeAt 0xFFFE [0x76])).map (·.halted) = some true := by decide
theorem witness_FaultingStepChangesOnlyTheLatch :
    State.reset.fault = none ∧
    (after State.reset).map (·.fault) = some (some (.unimplementedOpcode 0x00)) ∧
    (after (codeAt 0 [0xC5])).map (·.fault) = some (some .outOfBounds) := by decide
theorem witness_OutOfBoundsExactlyAtTheListedPlaces :
    isUndefined (.push .bc) = false ∧
    outOfBoundsPlace (.push .bc) (atPcSp 0 1) = true ∧
    outOfBoundsPlace (.push .bc) (atPcSp 0 2) = false ∧
    outOfBoundsPlace (.pop .bc) (atPcSp 0 0xFFFE) = true ∧
    outOfBoundsPlace (.pop .bc) (atPcSp 0 0xFFFD) = false ∧
    outOfBoundsPlace (.call 0) (atPcSp 0xFFFD 2) = true ∧
    outOfBoundsPlace (.call 0) (atPcSp 0xFFFC 2) = false ∧
    outOfBoundsPlace .ret (atPcSp 0xFFFF 0) = false ∧
    outOfBoundsPlace (.jmp 0) (atPcSp 0xFFFE 0) = true ∧
    outOfBoundsPlace (.jmp 0) (atPcSp 0xFFFD 0) = false := by decide
theorem witness_SequentialAdvanceIsTheLength :
    isUndefined .ei = false ∧ outOfBoundsPlace .ei (atPcSp 0xFFFE 0) = false ∧
    transfersControl .ei (atPcSp 0xFFFE 0) = false ∧ completes .ei (atPcSp 0xFFFE 0) = true := by
  decide

/-! ### Witnesses: the invariant and the draw -/

theorem witness_EveryStepKeepsTheInvariant :
    State.reset.Inv ∧
    step State.reset = .next { State.reset with fault := some (.unimplementedOpcode 0x00) } := by
  refine ⟨⟨by decide, by decide, ?_, by decide⟩, rfl⟩
  intro op h; cases h
/-- A halted and a faulted state of the invariant, beside the running one. -/
theorem witness_Inv_halted_and_faulted :
    { codeAt 0 [0x76] with pc := 1, halted := true }.Inv ∧
    { codeAt 0 [0xC5] with fault := some .outOfBounds }.Inv := by
  constructor
  · refine ⟨by decide, by decide, ?_, by decide⟩
    intro op h; cases h
  · refine ⟨by decide, by decide, ?_, by decide⟩
    intro op h; cases h
theorem witness_DrawReachesOnlyAcAndThePushedPsw :
    (codeAt 0 [0xF5]).mem.wf = true ∧
    sameButAc { codeAt 0 [0xF5] with sp := 0x2400 }
      { codeAt 0 [0xF5] with sp := 0x2400, draws := 7, flags := ⟨false, false, false, false, true⟩ } ∧
    (after { codeAt 0 [0xF5] with sp := 0x2400 }).map (·.mem.read 0x23FE) = some 0x02 := by
  exact ⟨by decide, rfl, by decide⟩

/-! ### Witnesses: whole-machine rules and frames -/

theorem witness_InteIsWrittenByEiAndDiAndReadByNothing :
    completes .hlt State.reset = true ∧ Instr.hlt ≠ .ei ∧ Instr.hlt ≠ .di ∧
    (nextOf (exec .ei State.reset)).map (fun t => (t.fault, t.inte)) = some (none, true) ∧
    (nextOf (exec .di State.reset)).map (fun t => (t.fault, t.inte)) = some (none, false) ∧
    outOfBoundsPlace .ei State.reset = false ∧ outOfBoundsPlace .di State.reset = false := by decide
theorem witness_RegistersOutsideTheDestinationAreKept :
    completes (.dad .bc) State.reset = true ∧ Reg8.a ∉ writtenRegs (.dad .bc) ∧
    writesSp (.dad .bc) = false := by decide
theorem witness_FlagsAreWrittenOnlyByTheListedInstructions :
    completes .rlc State.reset = true ∧ writesZsp .rlc = false ∧
    completes (.inr .mem) State.reset = true ∧ writesCarry (.inr .mem) = false := by decide
theorem witness_MemoryOutsideTheStoredBytesIsKept :
    (atPcSp 0 0x2400).mem.wf = true ∧ completes (.push .hl) (atPcSp 0 0x2400) = true ∧
    0x23FD ∉ storedAddrs (.push .hl) (atPcSp 0 0x2400) ∧
    0x2400 ∉ storedAddrs (.push .hl) (atPcSp 0 0x2400) ∧
    storedAddrs .cma (atPcSp 0 0x2400) = [] := by decide
theorem witness_HaltedAndTheLatchChangeOnlyAsStated :
    completes .cma State.reset = true ∧ Instr.cma ≠ .hlt ∧
    faultsOob (.push .bc) State.reset = true ∧
    (nextOf (exec (.undefined 0x00) State.reset)).map (·.fault) =
      some (some (.unimplementedOpcode 0x00)) := by decide

/-! ### Witnesses: memory and the port -/

theorem witness_MemoryAccessIsBoundsCheckedAndReadsBack :
    State.reset.mem.wf = true ∧ ((0 : Int) ≤ 65535 ∧ (65535 : Int) ≤ 65535) ∧
    ((-1 : Int) < 0 ∨ (65535 : Int) < -1) ∧ (65535 : Int) < 65536 ∧
    inRange16 0 = true ∧ inRange16 65535 = true ∧ inRange16 (-1) = false ∧ inRange16 65536 = false := by
  decide
theorem witness_CanonicalMemoryIsDeterminedByItsReads :
    Memory.wf [(0, 0x3E), (0xFFFF, 0x76)] = true ∧
    Memory.wf (Memory.write [(0xFFFF, 0x76)] 0 0x3E) = true ∧
    ∀ a : Nat, Memory.read [(0, 0x3E), (0xFFFF, 0x76)] a =
      (Memory.write [(0xFFFF, 0x76)] 0 0x3E).read a :=
  ⟨by decide, by decide, fun _ => rfl⟩
theorem witness_PortAccessesAreInRangeAndReadsComeFirst :
    (Instr.inr .mem).wellFormed = true ∧ isUndefined (.inr .mem) = false ∧
    outOfBoundsPlace (.inr .mem) (atPcSp 0xFFFE 0) = false ∧
    (portAccesses .listed (.inr .mem) (atPcSp 0xFFFE 0)).map (fun x => (x.dir, x.addr)) =
      [(.read, 0xFFFE), (.read, 0), (.write, 0)] ∧
    isUndefined (.push .bc) = false ∧ outOfBoundsPlace (.push .bc) (atPcSp 0 2) = false ∧
    (portAccesses .listed (.push .bc) (atPcSp 0 2)).map (·.addr) = [0, 1, 0] ∧
    (portAccesses .lowerFirst (.push .bc) (atPcSp 0 2)).map (·.addr) = [0, 0, 1] := by decide
theorem witness_PushWriteOrderIsNotObservable :
    (atPcSp 0 2).mem.wf = true ∧ 2 ≤ (atPcSp 0 2).sp.toNat ∧
    ((atPcSp 0 2).mem.write 0 0x22).write 1 0x11 = [(0, 0x22), (1, 0x11)] := by decide
theorem witness_PortWritesAreTheWholeMemoryEffect :
    isUndefined (.push .psw) = false ∧ outOfBoundsPlace (.push .psw) (atPcSp 0 2) = false ∧
    (atPcSp 0 2).mem.wf = true ∧
    (nextOf (exec (.push .psw) (atPcSp 0 2))).map (·.mem) = some [(0, 0x02)] := by decide
theorem witness_StoreIsSeenByTheNextFetch :
    let s : State := { codeAt 0xFFFB [0x32, 0xFE, 0xFF] with regs := ⟨0, 0, 0, 0, 0, 0, 0x76⟩ }
    s.mem.wf = true ∧ s.fault = none ∧ s.halted = false ∧ s.pc.toNat ≤ 0xFFFB ∧
    decode [s.mem.read s.pc.toNat, s.mem.read (s.pc.toNat + 1), s.mem.read (s.pc.toNat + 2)] =
      .ok (.sta (s.pc + 3), []) ∧ s.regs.a = 0x76 :=
  ⟨by decide, rfl, rfl, by decide, rfl, rfl⟩
theorem witness_SelectorOperandIsARegisterOrTheByteAtHl : Reg8.b ≠ Reg8.a := by decide
theorem witness_PairIsItsTwoRegistersHighByteFirst : Pair.sp ≠ Pair.bc := by decide

/-! ### Witnesses: the instructions at the boundary values of `pc` and `sp` -/

theorem witness_MovCopiesOneByte :
    ¬(Operand.reg .b = .mem ∧ Operand.mem = .mem) ∧ bound1 (.mov (.reg .b) .mem) = true ∧
    bound1 (.mov .mem (.reg .l)) = true := by decide
theorem witness_MviStoresTheImmediate :
    bound2 (.mvi (.reg .a) 0xFF) = true ∧ bound2 (.mvi .mem 0xFF) = true := by decide
theorem witness_LxiLoadsThePairOrSp :
    bound3 (.lxi .sp 0xFFFF) = true ∧ bound3 (.lxi .bc 0) = true := by decide
theorem witness_LdaLoadsAndStaStoresTheAccumulator :
    bound3 (.lda 0xFFFF) = true ∧ bound3 (.sta 0xFFFF) = true := by decide
theorem witness_LdaxLoadsFromBcOrDe : bound1 (.ldax .bc) = true ∧ bound1 (.ldax .de) = true := by decide
theorem witness_XchgSwapsHlAndDe :
    bound1 .xchg = true ∧ (atPcSp 0xFFFD 0).pc.toNat ≤ 0xFFFD := by decide
theorem witness_AdiAndAddAddToTheAccumulator :
    bound2 (.adi 0xFF) = true ∧ bound1 (.add .mem) = true := by decide
theorem witness_CpiComparesTheImmediate : bound2 (.cpi 0xFF) = true := by decide
theorem witness_DadAddsThePairToHl : bound1 (.dad .sp) = true := by decide
theorem witness_InrAndDcrStepTheOperandAndKeepCarry :
    bound1 (.inr .mem) = true ∧ bound1 (.dcr (.reg .a)) = true := by decide
theorem witness_InxIncrementsThePairAndNoFlag : bound1 (.inx .sp) = true := by decide
theorem witness_AniAnaAndXraCombineAndClearCarry :
    bound2 (.ani 0) = true ∧ bound1 (.ana .mem) = true ∧ bound1 (.xra (.reg .a)) = true := by decide
theorem witness_RlcRotatesTheAccumulatorLeft :
    bound1 .rlc = true ∧ (atPcSp 0xFFF7 0).pc.toNat ≤ 0xFFF7 := by decide
theorem witness_RrcRotatesTheAccumulatorRight :
    bound1 .rrc = true ∧ (atPcSp 0xFFFD 0).pc.toNat ≤ 0xFFFD ∧
    (atPcSp 0xFFF7 0).pc.toNat ≤ 0xFFF7 := by decide
theorem witness_CmaComplementsTheAccumulatorAndNoFlag :
    bound1 .cma = true ∧ (atPcSp 0xFFFD 0).pc.toNat ≤ 0xFFFD := by decide
theorem witness_StcSetsAndCmcTogglesCarry : bound1 .stc = true ∧ bound1 .cmc = true := by decide
theorem witness_PushStoresThePairBelowSp :
    bound1 (.push .psw) = true ∧ completes (.push .psw) (atPcSp 0xFFFE 2) = true ∧
    faultsOob (.push .psw) (atPcSp 0xFFFE 1) = true := by decide
theorem witness_PopLoadsThePairAndUndoesPush :
    bound1 (.pop .psw) = true ∧ completes (.pop .psw) (atPcSp 0xFFFE 0xFFFD) = true ∧
    faultsOob (.pop .psw) (atPcSp 0 0xFFFE) = true ∧
    (atPcSp 0xFFFD 2).mem.wf = true ∧ (atPcSp 0xFFFD 2).pc.toNat ≤ 0xFFFD ∧
    2 ≤ (atPcSp 0xFFFD 2).sp.toNat := by decide
theorem witness_JmpSetsThePc :
    completes (.jmp 0) (atPcSp 0xFFFD 0) = true ∧ faultsOob (.jmp 0) (atPcSp 0xFFFE 0) = true ∧
    faultsOob (.jmp 0) (atPcSp 0xFFFF 0) = true := by decide
theorem witness_JnzJumpsWhenZeroIsClear :
    completes (.jnz 0) (atPcSp 0xFFFD 0) = true ∧ faultsOob (.jnz 0) (atPcSp 0xFFFE 0) = true ∧
    completes (.jnz 0) { atPcSp 0xFFFC 0 with flags := ⟨false, true, false, false, false⟩ } = true ∧
    faultsOob (.jnz 0) { atPcSp 0xFFFD 0 with flags := ⟨false, true, false, false, false⟩ } = true := by
  decide
theorem witness_CallPushesTheReturnAddress :
    completes (.call 0) (atPcSp 0xFFFC 2) = true ∧ faultsOob (.call 0) (atPcSp 0xFFFD 2) = true ∧
    faultsOob (.call 0) (atPcSp 0 1) = true := by decide
theorem witness_RetPopsThePcAndUndoesCall :
    completes .ret (atPcSp 0xFFFF 0xFFFD) = true ∧ faultsOob .ret (atPcSp 0 0xFFFE) = true ∧
    (atPcSp 0xFFFC 2).mem.wf = true ∧ (atPcSp 0xFFFC 2).pc.toNat ≤ 0xFFFC ∧
    2 ≤ (atPcSp 0xFFFC 2).sp.toNat := by decide
theorem witness_OutAndInOnlyAdvanceThePc :
    bound2 (.outPort 0xFF) = true ∧ bound2 (.inPort 0xFF) = true := by decide
theorem witness_EiSetsAndDiClearsInte : bound1 .ei = true ∧ bound1 .di = true := by decide
theorem witness_HltHaltsOnePastItself : bound1 .hlt = true := by decide

end Sys2Proof.Tests
end

section
/-! The state after reset (R22). -/

namespace Sys2Proof.Machine

/-- R18, R22: memory after reset lists no byte, so every address reads the unlisted value. -/
@[simp] theorem State.reset_mem_read (addr : Nat) : State.reset.mem.read addr = 0 :=
  Memory.read_nil addr

/-- Settles O1: each field is the literal `State.reset` gives it; memory by `State.reset_mem_read`. -/
theorem resetLeavesEveryElementZero : Obligations.ResetLeavesEveryElementZero :=
  have hregs : State.reset.regs = ⟨0, 0, 0, 0, 0, 0, 0⟩ := rfl
  have hflags : State.reset.flags = ⟨false, false, false, false, false⟩ := rfl
  ⟨hregs, rfl, rfl, hflags, rfl, State.reset_mem_read, rfl, rfl⟩

end Sys2Proof.Machine
end

section
/-! Memory (20_memory.md): the canonical form is determined by its reads, so writes to different
addresses commute; the checked access of R31 and R32; the order of a push's writes (R41). -/

namespace Sys2Proof.Machine

/-! ### The canonical form -/

@[simp] theorem Memory.read_head (c : Host.Cell) (m : Memory) : Memory.read (c :: m) c.1 = c.2 :=
  if_pos rfl

/-- Every address that does not read as an unlisted one lies at or above the first listed one. -/
theorem Memory.head_le_of_read_ne {c : Host.Cell} {m : Memory} (h : Memory.wf (c :: m) = true)
    {addr : Nat} (ha : Memory.read (c :: m) addr ≠ 0) : c.1 ≤ addr := by
  obtain ⟨-, -, hlt, -⟩ := (Memory.wf_cons c m).mp h
  by_contra hlow
  refine ha (Memory.read_of_lt fun c' hc' => ?_)
  rcases List.mem_cons.mp hc' with rfl | hc'
  · omega
  · have := hlt c' hc'
    omega

/-- What the cells behind the first one read as, told from the reads of the whole memory. -/
theorem Memory.read_tail {c : Host.Cell} {m : Memory} (h : Memory.wf (c :: m) = true) (addr : Nat) :
    Memory.read m addr = if addr = c.1 then 0 else Memory.read (c :: m) addr := by
  obtain ⟨-, -, hlt, -⟩ := (Memory.wf_cons c m).mp h
  split
  case isTrue heq => exact Memory.read_of_lt (heq ▸ hlt)
  case isFalse hne => rw [Memory.read_cons, if_neg (Ne.symm hne)]

/-- Two canonical memories with the same reads are the same data (log entry 10): their first cells
agree, since the first listed address is the least one that reads as a byte other than 0x00. -/
theorem Memory.eq_of_read_eq {m m' : Memory} (h : Memory.wf m = true) (h' : Memory.wf m' = true)
    (hread : ∀ addr, Memory.read m addr = Memory.read m' addr) : m = m' := by
  induction m generalizing m' with
  | nil =>
    cases m' with
    | nil => rfl
    | cons c' m' =>
      obtain ⟨-, hc', -, -⟩ := (Memory.wf_cons c' m').mp h'
      exact absurd (by simpa using (hread c'.1).symm) hc'
  | cons c m ih =>
    obtain ⟨-, hc, -, hm⟩ := (Memory.wf_cons c m).mp h
    cases m' with
    | nil => exact absurd (by simpa using hread c.1) hc
    | cons c' m' =>
      obtain ⟨-, hc', -, hm'⟩ := (Memory.wf_cons c' m').mp h'
      have haddr : c.1 = c'.1 := Nat.le_antisymm
        (Memory.head_le_of_read_ne h (by rw [hread]; simpa using hc'))
        (Memory.head_le_of_read_ne h' (by rw [← hread]; simpa using hc))
      have hbyte : c.2 = c'.2 := by
        rw [← Memory.read_head c m, hread, haddr, Memory.read_head]
      have htail : m = m' := ih hm hm' fun addr => by
        rw [Memory.read_tail h, Memory.read_tail h', haddr, hread]
      rw [Prod.ext haddr hbyte, htail]

/-- Writes to two different addresses commute: either order gives the same reads. -/
theorem Memory.write_comm {m : Memory} (hm : Memory.wf m = true) {a b : Nat} (ha : a < 65536)
    (hb : b < 65536) (hab : a ≠ b) (v w : Byte) :
    (m.write a v).write b w = (m.write b w).write a v := by
  have hma := Memory.wf_write hm ha v
  have hmb := Memory.wf_write hm hb w
  refine Memory.eq_of_read_eq (Memory.wf_write hma hb w) (Memory.wf_write hmb ha v) fun x => ?_
  rw [Memory.read_write hma, Memory.read_write hm, Memory.read_write hmb, Memory.read_write hm]
  by_cases hxa : x = a
  · rw [if_pos hxa, if_neg (hxa ▸ hab), if_pos hxa]
  · rw [if_neg hxa, if_neg hxa]

/-! ### Checked access at an integer address -/

theorem memWrite_error {s : State} {addr : Int} {v : Byte} (h : ¬(0 ≤ addr ∧ addr ≤ 65535)) :
    memWrite s addr v = .error .outOfBounds :=
  if_neg (mt (inRange16_iff _).mp h)

/-- A checked read after a write in range: the written address gives the value, and every other integer
address gives what it gave before, the fault included. -/
theorem memRead_write {s : State} (hm : s.mem.wf = true) {a : Int} (ha : 0 ≤ a ∧ a ≤ 65535) (v : Byte)
    (b : Int) : memRead { s with mem := s.mem.write a.toNat v } b =
      if b = a then .ok v else memRead s b := by
  by_cases hb : 0 ≤ b ∧ b ≤ 65535
  · rw [memRead_ok hb, memRead_ok hb, Memory.read_write hm]
    by_cases hba : b = a
    · rw [if_pos hba, if_pos (congrArg Int.toNat hba)]
    · rw [if_neg hba, if_neg (show b.toNat ≠ a.toNat by omega)]
  · rw [memRead_error hb, memRead_error hb, if_neg (show b ≠ a from fun hba => hb (hba ▸ ha))]

/-- Settles O26: in range by the equations of `memRead` and `memWrite` and by `memRead_write`, out of
range by their error equations. -/
theorem memoryAccessIsBoundsCheckedAndReadsBack :
    Obligations.MemoryAccessIsBoundsCheckedAndReadsBack := by
  intro s a b v hm
  constructor
  · intro ha
    have hwf : (s.mem.write a.toNat v).wf = true := Memory.wf_write hm (by omega) v
    have hsame := (memRead_write hm ha v a).trans (if_pos rfl)
    have hother (hba : b ≠ a) := (memRead_write hm ha v b).trans (if_neg hba)
    exact ⟨memRead_ok ha, _, memWrite_ok ha, rfl, hwf, hsame, hother⟩
  · intro ha
    have hout : ¬(0 ≤ a ∧ a ≤ 65535) := by omega
    exact ⟨memRead_error hout, memWrite_error hout⟩

/-! ### The order of a push's writes -/

section
variable {s : State} (hm : s.mem.wf = true) (hsp : 2 ≤ s.sp.toNat) (hi lo : Byte)
include hm hsp

/-- The two writes of a push go to different addresses, so they commute. -/
theorem Memory.push_writes_comm :
    (s.mem.write (s.sp.toNat - 1) hi).write (s.sp.toNat - 2) lo =
      (s.mem.write (s.sp.toNat - 2) lo).write (s.sp.toNat - 1) hi := by
  have hlt := s.sp.isLt
  exact Memory.write_comm hm (by omega) (by omega) (by omega) hi lo

/-- Memory after the port's writes of a push, whichever of the two comes first. -/
theorem Memory.afterAccesses_pushWrites (o : PushOrder) :
    s.mem.afterAccesses (pushWrites o hi lo s) =
      (s.mem.write (s.sp.toNat - 1) hi).write (s.sp.toNat - 2) lo := by
  cases o with
  | listed => rfl
  | lowerFirst => exact (Memory.push_writes_comm hm hsp hi lo).symm

end

/-- Settles O60: `pushBytes` and the port view both reduce to the listed order of the two writes, which
`Memory.push_writes_comm` exchanges. -/
theorem pushWriteOrderIsNotObservable : Obligations.PushWriteOrderIsNotObservable := by
  intro hi lo s hm hsp
  constructor
  · rw [pushBytes_ok hi lo hsp, Memory.push_writes_comm hm hsp]
  · rw [Memory.afterAccesses_pushWrites hm hsp, Memory.afterAccesses_pushWrites hm hsp]

end Sys2Proof.Machine
end

section
/-! Decoding by format (30_encoding.md): the bytes of R51 with a selector of R52 or R53 in their field
decode to the mnemonic of R55 with that operand, whatever follows. -/

namespace Sys2Proof

/-- R51, R52: the MVI byte with the selector of `dst` at bits 5..3, then its immediate. -/
theorem decode_mvi (dst : Operand) (d8 : Byte) (rest : List Byte) :
    decode ((0b00#2 ++ dst.sel ++ 0b110#3) :: d8 :: rest) = .ok (.mvi dst d8, rest) := by
  have himm (sel : BitVec 3) : immKindOf (0b00#2 ++ sel ++ 0b110#3) = .byte := by
    revert sel; decide
  have hasm (v : Word) : assemble (0b00#2 ++ dst.sel ++ 0b110#3) v = .mvi dst (loByte v) := by
    rcases dst with r | _
    · cases r <;> rfl
    · rfl
  rw [decode_byte (himm dst.sel), hasm, Machine.loByte_wordOf]

/-- R51, R52: the ADD byte with the selector of `src` at bits 2..0. -/
theorem decode_add (src : Operand) (rest : List Byte) :
    decode ((0b10000#5 ++ src.sel) :: rest) = .ok (.add src, rest) := by
  have himm (sel : BitVec 3) : immKindOf (0b10000#5 ++ sel) = .none := by
    revert sel; decide
  have hasm : assemble (0b10000#5 ++ src.sel) 0 = .add src := by
    rcases src with r | _
    · cases r <;> rfl
    · rfl
  rw [decode_none (himm src.sel), hasm]

/-- R51, R53, R54: the LXI byte with the selector of `rp` at bits 5..4, then its immediate, the low byte
first. -/
theorem decode_lxi (rp : Pair) (lo hi : Byte) (rest : List Byte) :
    decode ((0b00#2 ++ rp.sel ++ 0b0001#4) :: lo :: hi :: rest) =
      .ok (.lxi rp (wordOf hi lo), rest) := by
  have himm (sel : BitVec 2) : immKindOf (0b00#2 ++ sel ++ 0b0001#4) = .word := by
    revert sel; decide
  have hasm (v : Word) : assemble (0b00#2 ++ rp.sel ++ 0b0001#4) v = .lxi rp v := by
    cases rp <;> rfl
  rw [decode_word (himm rp.sel), hasm]

/-- R51, R53: the PUSH byte with the selector of `rp` at bits 5..4. -/
theorem decode_push (rp : StackPair) (rest : List Byte) :
    decode ((0b11#2 ++ rp.sel ++ 0b0101#4) :: rest) = .ok (.push rp, rest) := by
  have himm (sel : BitVec 2) : immKindOf (0b11#2 ++ sel ++ 0b0101#4) = .none := by
    revert sel; decide
  have hasm : assemble (0b11#2 ++ rp.sel ++ 0b0101#4) 0 = .push rp := by
    cases rp <;> rfl
  rw [decode_none (himm rp.sel), hasm]

/-- Settles O8: each of the six bytes is its mnemonic's format with the operand's selector in place, so
the four laws of decoding by format give the instructions. -/
theorem theSourcesSixBytesDecode : Obligations.TheSourcesSixBytesDecode := fun x y rest =>
  ⟨decode_mvi (.reg .a) x rest, decode_mvi (.reg .b) x rest, decode_add (.reg .b) rest,
    decode_lxi .hl x y rest, decode_lxi .bc x y rest, decode_push .bc rest⟩

end Sys2Proof
end

section
/-! Operand access (40_fetch_decode_step.md): what a two-byte value is as a number, the selector
operand of R74, and the pairs of R75. -/

namespace Sys2Proof.Machine

/-! ### Byte order -/

/-- R5: the value of `hi ++ lo`. The low byte stays below 256, so joining the bits is adding. -/
theorem wordOf_toNat (hi lo : Byte) : (wordOf hi lo).toNat = hi.toNat * 256 + lo.toNat := by
  rw [wordOf, BitVec.toNat_append, ← Nat.shiftLeft_add_eq_or_of_lt lo.isLt, Nat.shiftLeft_eq]

theorem State.hl_toNat (s : State) : s.hl.toNat = s.regs.h.toNat * 256 + s.regs.l.toNat :=
  wordOf_toNat s.regs.h s.regs.l

/-! ### The selector operand -/

theorem Regs.get_set_same (r : Regs) (n : Reg8) (v : Byte) : (r.set n v).get n = v :=
  (Regs.get_set r n n v).trans (if_pos rfl)

theorem Regs.get_set_ne (r : Regs) {n m : Reg8} (h : m ≠ n) (v : Byte) :
    (r.set n v).get m = r.get m :=
  (Regs.get_set r n m v).trans (if_neg h)

/-- R74: the memory operand reads the byte at `H ++ L`, the address as a number. -/
theorem rdOp_mem_eq_read (s : State) :
    rdOp .mem s = s.mem.read (s.regs.h.toNat * 256 + s.regs.l.toNat) := by
  rw [rdOp_mem, State.byteAt_def, State.hl_toNat]

/-- R74: the memory operand writes the byte at `H ++ L`, and no other field. -/
theorem wrOp_mem_eq_write (v : Byte) (s : State) :
    wrOp .mem v s =
      { s with mem := s.mem.write (s.regs.h.toNat * 256 + s.regs.l.toNat) v } := by
  rw [wrOp_mem, State.setByte, State.hl_toNat]

/-- Settles O31: a register operand by the laws of `Regs.set`, the memory operand by the value of `HL`. -/
theorem selectorOperandIsARegisterOrTheByteAtHl :
    Obligations.SelectorOperandIsARegisterOrTheByteAtHl := by
  intro s v
  refine ⟨fun r => ⟨rdOp_reg r s, s.regs.set r v, wrOp_reg r v s, ?_, ?_⟩, ?_, ?_, rfl⟩
  · exact Regs.get_set_same s.regs r v
  · exact fun r' hne => Regs.get_set_ne s.regs hne v
  · exact rdOp_mem_eq_read s
  · exact wrOp_mem_eq_write v s

/-! ### Register pairs -/

/-- R75: a pair reads back what was written to it, its two bytes joined again. -/
@[simp] theorem rdPair_wrPair_same (k : Pair) (v : Word) (s : State) :
    rdPair k (wrPair k v s) = v := by
  cases k with
  | bc | de | hl => exact wordOf_hiByte_loByte v
  | sp => rfl

/-- R75: the four pairs share no register, so writing one leaves what the others read: for `k' = k` the
hypothesis is absurd, and for every other choice the two sides compute to the same register fields. -/
theorem rdPair_wrPair_ne {k k' : Pair} (h : k' ≠ k) (v : Word) (s : State) :
    rdPair k' (wrPair k v s) = rdPair k' s := by
  cases k <;> cases k' <;> trivial

/-- R75: the accumulator is in no pair. -/
@[simp] theorem wrPair_regs_a (k : Pair) (v : Word) (s : State) :
    (wrPair k v s).regs.a = s.regs.a := by
  cases k <;> rfl

/-- Settles O32: the pairs' values by `wordOf_toNat`, the writes by the laws of `wrPair`. -/
theorem pairIsItsTwoRegistersHighByteFirst : Obligations.PairIsItsTwoRegistersHighByteFirst :=
  fun s v =>
    ⟨wordOf_toNat s.regs.b s.regs.c, wordOf_toNat s.regs.d s.regs.e, State.hl_toNat s, rfl,
      fun k => ⟨rdPair_wrPair_same k v s, fun _ hne => rdPair_wrPair_ne hne v s⟩,
      fun k => wrPair_regs_a k v s, wrPair_sp v s⟩

end Sys2Proof.Machine
end

section
/-! Decoding the data movement instructions by format (30_encoding.md): MOV, LDA, STA, LDAX and XCHG. MVI and
LXI stand with the other formats above. -/

namespace Sys2Proof

/-- R52: selector value 6 is the memory operand's alone. -/
theorem Operand.sel_eq_six_iff (o : Operand) : o.sel = 6 ↔ o = .mem := by
  rcases o with r | _
  · cases r <;> decide
  · decide

/-- R51, R52, R57: the MOV byte with the selector of `dst` at bits 5..3 and of `src` at bits 2..0. Of the 64
bytes only the one with both selectors 6 is HLT's. -/
theorem decode_mov {dst src : Operand} (h : ¬(dst = .mem ∧ src = .mem)) (rest : List Byte) :
    decode ((0b01#2 ++ dst.sel ++ src.sel) :: rest) = .ok (.mov dst src, rest) := by
  have himm : ∀ d s : BitVec 3, immKindOf (0b01#2 ++ d ++ s) = .none := by decide
  have hasm : ∀ d s : BitVec 3, ¬(d = 6 ∧ s = 6) →
      assemble (0b01#2 ++ d ++ s) 0 = .mov (.ofSel d) (.ofSel s) := by decide
  rw [← dst.sel_eq_six_iff, ← src.sel_eq_six_iff] at h
  rw [decode_none (himm _ _), hasm _ _ h, Operand.ofSel_sel, Operand.ofSel_sel]

/-- R54, R55: the LDA byte, then its address, the low byte first. -/
theorem decode_lda (a16 : Word) (rest : List Byte) :
    decode (0x3A :: loByte a16 :: hiByte a16 :: rest) = .ok (.lda a16, rest) := by
  have hasm (v : Word) : assemble 0x3A v = .lda v := rfl
  rw [decode_word rfl, hasm, Machine.wordOf_hiByte_loByte]

/-- R54, R55: the STA byte, then its address, the low byte first. -/
theorem decode_sta (a16 : Word) (rest : List Byte) :
    decode (0x32 :: loByte a16 :: hiByte a16 :: rest) = .ok (.sta a16, rest) := by
  have hasm (v : Word) : assemble 0x32 v = .sta v := rfl
  rw [decode_word rfl, hasm, Machine.wordOf_hiByte_loByte]

/-- R51, R53: the LDAX byte with the field of `rp` at bit 4. -/
theorem decode_ldax (rp : IndexPair) (rest : List Byte) :
    decode ((0b000#3 ++ rp.sel ++ 0b1010#4) :: rest) = .ok (.ldax rp, rest) := by
  cases rp <;> exact decode_none rfl

/-- R55: the XCHG byte. -/
theorem decode_xchg (rest : List Byte) : decode (0xEB :: rest) = .ok (.xchg, rest) :=
  decode_none rfl

end Sys2Proof
end

section
/-! The data movement instructions (41_data_movement.md): each is its effect with a sequential end, so its
two outcomes are those of `sequential`. -/

namespace Sys2Proof.Machine

/-! ### Meanings as sequential ends -/

theorem exec_mov (dst src : Operand) (s : State) :
    exec (.mov dst src) s = sequential 1 s (wrOp dst (rdOp src s) s) := rfl

theorem exec_mvi (dst : Operand) (d8 : Byte) (s : State) :
    exec (.mvi dst d8) s = sequential 2 s (wrOp dst d8 s) := rfl

theorem exec_lxi (rp : Pair) (d16 : Word) (s : State) :
    exec (.lxi rp d16) s = sequential 3 s (wrPair rp d16 s) := rfl

theorem exec_lda (a16 : Word) (s : State) :
    exec (.lda a16) s = sequential 3 s (s.setA (s.byteAt a16)) := rfl

theorem exec_sta (a16 : Word) (s : State) :
    exec (.sta a16) s = sequential 3 s (s.setByte a16 s.regs.a) := rfl

theorem exec_ldax (rp : IndexPair) (s : State) :
    exec (.ldax rp) s = sequential 1 s (s.setA (s.byteAt (rdIndexPair rp s))) := rfl

theorem exec_xchg (s : State) :
    exec .xchg s = sequential 1 s { s with regs :=
      { s.regs with h := s.regs.d, d := s.regs.h, l := s.regs.e, e := s.regs.l } } := rfl

/-! ### The boundary of a one-byte instruction -/

/-- R73: below the top of memory a one-byte instruction moves `pc` by 1. -/
theorem sequential_one_next {s : State} (t : State) (h : s.pc.toNat ≤ 0xFFFE) :
    sequential 1 s t = .next { t with pc := s.pc + 1 } :=
  sequential_next t (by omega)

/-- R73, R152: at the top of memory a one-byte instruction has no next address. -/
theorem sequential_one_fault {s : State} (t : State) (h : s.pc = 0xFFFF) :
    sequential 1 s t = .next (raiseFault .outOfBounds s) :=
  sequential_fault t (by rw [h]; decide)

/-! ### MOV, MVI, LXI -/

/-- Settles O35: `decode_mov`, and the two ends of a one-byte instruction. -/
theorem movCopiesOneByte : Obligations.MovCopiesOneByte := by
  intro d src s hmm
  rw [exec_mov]
  exact ⟨decode_mov hmm, sequential_one_next _, sequential_one_fault _⟩

/-- Settles O36: `decode_mvi`, and the two ends of a two-byte instruction. -/
theorem mviStoresTheImmediate : Obligations.MviStoresTheImmediate := by
  intro d d8 s
  rw [exec_mvi]
  exact ⟨decode_mvi d d8, fun h => sequential_next _ (by omega),
    fun h => sequential_fault _ (by omega)⟩

/-- Settles O37: `decode_lxi`, and the two ends of a three-byte instruction. The pair takes the immediate's
own two bytes, by the laws of `hiByte` and `loByte` on `wordOf`. -/
theorem lxiLoadsThePairOrSp : Obligations.LxiLoadsThePairOrSp := by
  intro rp lo hi s
  rw [exec_lxi]
  refine ⟨decode_lxi rp lo hi, fun h => ?_, fun h => sequential_fault _ (by omega)⟩
  rw [sequential_next _ (by omega)]
  cases rp with
  | bc | de | hl => simp only [wrPair, hiByte_wordOf, loByte_wordOf]; rfl
  | sp => rfl

/-! ### LDA, STA, LDAX -/

/-- Settles O38: `decode_lda` and `decode_sta`, and the two ends of a three-byte instruction. -/
theorem ldaLoadsAndStaStoresTheAccumulator : Obligations.LdaLoadsAndStaStoresTheAccumulator := by
  intro a16 s
  rw [exec_lda, exec_sta]
  refine ⟨decode_lda a16, decode_sta a16, fun h => ?_, fun h => ?_⟩
  · have hpc : s.pc.toNat + 3 ≤ 65535 := by omega
    exact ⟨sequential_next _ hpc, sequential_next _ hpc⟩
  · have hpc : 65535 < s.pc.toNat + 3 := by omega
    exact ⟨sequential_fault _ hpc, sequential_fault _ hpc⟩

/-- Settles O39: `decode_ldax`, the two ends of a one-byte instruction, and the pair's value as a number. -/
theorem ldaxLoadsFromBcOrDe : Obligations.LdaxLoadsFromBcOrDe := by
  intro s
  refine ⟨fun rest => ⟨decode_ldax .bc rest, decode_ldax .de rest⟩, fun h => ?_, fun h rp => ?_⟩
  · rw [exec_ldax, exec_ldax, ← wordOf_toNat, ← wordOf_toNat]
    exact ⟨sequential_one_next _ h, sequential_one_next _ h⟩
  · rw [exec_ldax]
    exact sequential_one_fault _ h

/-! ### XCHG -/

/-- R91: two XCHG in a row swap the halves back, so only `pc` has moved. -/
theorem exec_xchg_twice {s : State} (h : s.pc.toNat ≤ 0xFFFD) :
    ∃ t, exec .xchg s = .next t ∧ exec .xchg t = .next { s with pc := s.pc + 2 } := by
  have hpc : (s.pc + 1).toNat ≤ 0xFFFE := by bv_omega
  refine ⟨_, (exec_xchg s).trans (sequential_one_next _ (by omega)), ?_⟩
  rw [exec_xchg, sequential_one_next _ hpc, BitVec.add_assoc]
  rfl

/-- Settles O40: `decode_xchg`, the two ends of a one-byte instruction, and `exec_xchg_twice`. -/
theorem xchgSwapsHlAndDe : Obligations.XchgSwapsHlAndDe := by
  intro s
  refine ⟨decode_xchg, ?_, ?_, exec_xchg_twice⟩
  · rw [exec_xchg]
    exact sequential_one_next _
  · rw [exec_xchg]
    exact sequential_one_fault _

end Sys2Proof.Machine
end

section
/-! Decoding the arithmetic and logical instructions by format (30_encoding.md). ADD stands with the other
formats above. -/

namespace Sys2Proof

/-! ### An operand selected by a field of the opcode byte -/

/-- R51, R52: a family of one-byte instructions whose byte `op sel` holds a 3-bit selector and builds
`mk` of the operand that the selector names. -/
theorem decode_operandField {op : BitVec 3 → Byte} {mk : Operand → Instr}
    (himm : ∀ sel, immKindOf (op sel) = .none)
    (hasm : ∀ sel, assemble (op sel) 0 = mk (.ofSel sel)) (o : Operand) (rest : List Byte) :
    decode (op o.sel :: rest) = .ok (mk o, rest) := by
  rw [decode_none (himm _), hasm, Operand.ofSel_sel]

/-- R51, R53: the same for a 2-bit field that selects a register pair. -/
theorem decode_pairField {op : BitVec 2 → Byte} {mk : Pair → Instr}
    (himm : ∀ sel, immKindOf (op sel) = .none)
    (hasm : ∀ sel, assemble (op sel) 0 = mk (.ofSel sel)) (k : Pair) (rest : List Byte) :
    decode (op k.sel :: rest) = .ok (mk k, rest) := by
  rw [decode_none (himm _), hasm, Pair.ofSel_sel]

theorem decode_inr (dst : Operand) (rest : List Byte) :
    decode ((0b00#2 ++ dst.sel ++ 0b100#3) :: rest) = .ok (.inr dst, rest) :=
  decode_operandField (op := fun sel => 0b00#2 ++ sel ++ 0b100#3) (by decide) (by decide) dst rest

theorem decode_dcr (dst : Operand) (rest : List Byte) :
    decode ((0b00#2 ++ dst.sel ++ 0b101#3) :: rest) = .ok (.dcr dst, rest) :=
  decode_operandField (op := fun sel => 0b00#2 ++ sel ++ 0b101#3) (by decide) (by decide) dst rest

theorem decode_ana (src : Operand) (rest : List Byte) :
    decode ((0b10100#5 ++ src.sel) :: rest) = .ok (.ana src, rest) :=
  decode_operandField (op := fun sel => 0b10100#5 ++ sel) (by decide) (by decide) src rest

theorem decode_xra (src : Operand) (rest : List Byte) :
    decode ((0b10101#5 ++ src.sel) :: rest) = .ok (.xra src, rest) :=
  decode_operandField (op := fun sel => 0b10101#5 ++ sel) (by decide) (by decide) src rest

theorem decode_dad (rp : Pair) (rest : List Byte) :
    decode ((0b00#2 ++ rp.sel ++ 0b1001#4) :: rest) = .ok (.dad rp, rest) :=
  decode_pairField (op := fun sel => 0b00#2 ++ sel ++ 0b1001#4) (by decide) (by decide) rp rest

theorem decode_inx (rp : Pair) (rest : List Byte) :
    decode ((0b00#2 ++ rp.sel ++ 0b0011#4) :: rest) = .ok (.inx rp, rest) :=
  decode_pairField (op := fun sel => 0b00#2 ++ sel ++ 0b0011#4) (by decide) (by decide) rp rest

/-! ### An immediate byte after a fixed opcode byte -/

/-- R54: an opcode byte that is followed by one byte, and builds `mk` of it. -/
theorem decode_immediateByte {op : Byte} {mk : Byte → Instr} (himm : immKindOf op = .byte)
    (hasm : ∀ v, assemble op v = mk (loByte v)) (d8 : Byte) (rest : List Byte) :
    decode (op :: d8 :: rest) = .ok (mk d8, rest) := by
  rw [decode_byte himm, hasm, Machine.loByte_wordOf]

theorem decode_adi (d8 : Byte) (rest : List Byte) :
    decode (0xC6 :: d8 :: rest) = .ok (.adi d8, rest) :=
  decode_immediateByte rfl (fun _ => rfl) d8 rest

theorem decode_ani (d8 : Byte) (rest : List Byte) :
    decode (0xE6 :: d8 :: rest) = .ok (.ani d8, rest) :=
  decode_immediateByte rfl (fun _ => rfl) d8 rest

theorem decode_cpi (d8 : Byte) (rest : List Byte) :
    decode (0xFE :: d8 :: rest) = .ok (.cpi d8, rest) :=
  decode_immediateByte rfl (fun _ => rfl) d8 rest

/-! ### A fixed opcode byte alone -/

theorem decode_rlc (rest : List Byte) : decode (0x07 :: rest) = .ok (.rlc, rest) := decode_none rfl

theorem decode_rrc (rest : List Byte) : decode (0x0F :: rest) = .ok (.rrc, rest) := decode_none rfl

theorem decode_cma (rest : List Byte) : decode (0x2F :: rest) = .ok (.cma, rest) := decode_none rfl

theorem decode_stc (rest : List Byte) : decode (0x37 :: rest) = .ok (.stc, rest) := decode_none rfl

theorem decode_cmc (rest : List Byte) : decode (0x3F :: rest) = .ok (.cmc, rest) := decode_none rfl

end Sys2Proof
end

section
/-! The rotations of the accumulator (42_arithmetic_logical.md R112, R113). The laws of eight rotations rest on two
facts about a byte: each rotation left moves every bit one place on around it, and rotating right undoes
rotating left. -/

namespace Sys2Proof.Machine

/-! ### Rotating a byte -/

theorem rotateLeft_eq_append (a : Byte) :
    a.extractLsb' 0 7 ++ BitVec.ofBool (a.getLsbD 7) = a.rotateLeft 1 := by
  apply BitVec.eq_of_getLsbD_eq
  intro i hi
  rw [BitVec.getLsbD_append, BitVec.getLsbD_rotateLeft]
  by_cases h : i < 1
  · obtain rfl : i = 0 := by omega
    simp
  · simp [h, hi, show i - 1 < 7 by omega]

theorem rotateRight_eq_append (a : Byte) :
    BitVec.ofBool (a.getLsbD 0) ++ a.extractLsb' 1 7 = a.rotateRight 1 := by
  apply BitVec.eq_of_getLsbD_eq
  intro i hi
  rw [BitVec.getLsbD_append, BitVec.getLsbD_rotateRight]
  by_cases h : i < 7
  · simp [h]
  · obtain rfl : i = 7 := by omega
    simp

/-- Rotating left by one brings to bit `i` the bit below it, counted around the byte. -/
theorem getLsbD_rotateLeft_one (a : Byte) {i : Nat} (hi : i < 8) :
    (a.rotateLeft 1).getLsbD i = a.getLsbD ((i + 7) % 8) := by
  rw [BitVec.getLsbD_rotateLeft]
  by_cases h : i < 1
  · obtain rfl : i = 0 := by omega
    rfl
  · simp [h, hi, show (i + 7) % 8 = i - 1 by omega]

theorem getLsbD_iterate_rotateLeft (a : Byte) (k : Nat) {i : Nat} (hi : i < 8) :
    ((·.rotateLeft 1)^[k] a).getLsbD i = a.getLsbD ((i + 7 * k) % 8) := by
  induction k generalizing i with
  | zero => rw [Function.iterate_zero_apply, Nat.mul_zero, Nat.add_zero, Nat.mod_eq_of_lt hi]
  | succ k ih =>
    rw [Function.iterate_succ_apply', getLsbD_rotateLeft_one _ hi, ih (Nat.mod_lt _ (by decide)),
      show ((i + 7) % 8 + 7 * k) % 8 = (i + 7 * (k + 1)) % 8 by omega]

/-- After eight rotations every bit is back in its place. -/
theorem rotateLeft_iterate_eight (a : Byte) : (·.rotateLeft 1)^[8] a = a := by
  apply BitVec.eq_of_getLsbD_eq
  intro i hi
  rw [getLsbD_iterate_rotateLeft a 8 hi, show (i + 7 * 8) % 8 = i by omega]

/-- Rotating right by one takes every bit back to where rotating left by one took it from. -/
theorem rotateRight_rotateLeft :
    Function.LeftInverse (fun a : Byte => a.rotateRight 1) (fun a => a.rotateLeft 1) := by
  intro a
  apply BitVec.eq_of_getLsbD_eq
  intro i hi
  rw [BitVec.getLsbD_rotateRight]
  by_cases h : i < 7
  · simp [h, hi, show 1 + i < 8 by omega]
  · obtain rfl : i = 7 := by omega
    simp

/-- Seven rotations right are one rotation left: they undo seven of the eight that restore the byte. -/
theorem rotateRight_iterate_seven (a : Byte) : (·.rotateRight 1)^[7] a = a.rotateLeft 1 := by
  have hundo := rotateRight_rotateLeft.iterate 7 (a.rotateLeft 1)
  rwa [← Function.iterate_succ_apply, rotateLeft_iterate_eight] at hundo

theorem rotateRight_iterate_eight (a : Byte) : (·.rotateRight 1)^[8] a = a := by
  rw [Function.iterate_succ_apply', rotateRight_iterate_seven]
  exact rotateRight_rotateLeft a

/-! ### RLC and RRC as sequential ends -/

theorem exec_rlc (s : State) :
    exec .rlc s = sequential 1 s (setCarry (s.regs.a.getLsbD 7) (s.setA (s.regs.a.rotateLeft 1))) := by
  rw [← rotateLeft_eq_append]
  rfl

theorem exec_rrc (s : State) :
    exec .rrc s = sequential 1 s (setCarry (s.regs.a.getLsbD 0) (s.setA (s.regs.a.rotateRight 1))) := by
  rw [← rotateRight_eq_append]
  rfl

/-! ### A row of equal steps -/

/-- `k + 1` steps of a one-byte instruction that puts `f A` in the accumulator and `out A` in the carry: `f`
is iterated, and the carry is taken from the accumulator before the last step. -/
theorem run_accumulatorStep {i : Instr} {f : Byte → Byte} {out : Byte → Bool}
    (hexec : ∀ s, exec i s = sequential 1 s (setCarry (out s.regs.a) (s.setA (f s.regs.a))))
    (k : Nat) {s : State} (hpc : s.pc.toNat + (k + 1) ≤ 0xFFFF) :
    ({ Sys2Proof.core with step := exec i } : Host.Core).run (k + 1) s = .next { s with
      regs := { s.regs with a := f^[k + 1] s.regs.a },
      flags := { s.flags with cy := out (f^[k] s.regs.a) },
      pc := s.pc + BitVec.ofNat 16 (k + 1) } := by
  have hstep {s : State} (h : s.pc.toNat ≤ 0xFFFE) := (hexec s).trans (sequential_one_next _ h)
  induction k generalizing s with
  | zero => exact run_succ 0 (hstep (by omega))
  | succ k ih =>
    have hnext : (s.pc + 1).toNat + (k + 1) ≤ 0xFFFF := by bv_omega
    have hadd : s.pc + 1 + BitVec.ofNat 16 (k + 1) = s.pc + BitVec.ofNat 16 (k + 1 + 1) := by
      rw [BitVec.add_assoc, BitVec.add_comm 1, BitVec.ofNat_add (k + 1) 1]
      rfl
    rw [← hadd]
    exact (run_succ (k + 1) (hstep (by omega))).trans (ih hnext)

/-- Settles O47: `decode_rlc`, the two ends of a one-byte instruction, and eight steps by
`run_accumulatorStep`. The last carry is bit 7 after seven rotations, which is the original bit 0. -/
theorem rlcRotatesTheAccumulatorLeft : Obligations.RlcRotatesTheAccumulatorLeft := by
  intro s
  refine ⟨decode_rlc, ?_, ?_, fun h => ?_⟩
  · rw [exec_rlc]
    exact sequential_one_next _
  · rw [exec_rlc]
    exact sequential_one_fault _
  · have hcarry : ((·.rotateLeft 1)^[7] s.regs.a).getLsbD 7 = s.regs.a.getLsbD 0 :=
      getLsbD_iterate_rotateLeft s.regs.a 7 (by decide)
    rw [run_accumulatorStep (f := (·.rotateLeft 1)) (out := (·.getLsbD 7)) exec_rlc 7 (by omega), hcarry,
      rotateLeft_iterate_eight]
    rfl

/-- Settles O48: `decode_rrc`, the two ends of a one-byte instruction, `rotateRight_rotateLeft` for RRC after
RLC, and eight steps by `run_accumulatorStep`. The last carry is bit 0 after seven rotations, which is the
original bit 7. -/
theorem rrcRotatesTheAccumulatorRight : Obligations.RrcRotatesTheAccumulatorRight := by
  intro s
  refine ⟨decode_rrc, ?_, ?_, fun h => ?_, fun h => ?_⟩
  · rw [exec_rrc]
    exact sequential_one_next _
  · rw [exec_rrc]
    exact sequential_one_fault _
  · have hpc : (s.pc + 1).toNat ≤ 0xFFFE := by bv_omega
    refine ⟨_, _, (exec_rlc s).trans (sequential_one_next _ (by omega)),
      (exec_rrc _).trans (sequential_one_next _ hpc), ?_⟩
    exact congrArg (Regs.set s.regs .a) (rotateRight_rotateLeft s.regs.a)
  · have hcarry : ((·.rotateRight 1)^[7] s.regs.a).getLsbD 0 = s.regs.a.getLsbD 7 := by
      rw [rotateRight_iterate_seven]
      exact getLsbD_rotateLeft_one s.regs.a (by decide)
    rw [run_accumulatorStep (f := (·.rotateRight 1)) (out := (·.getLsbD 0)) exec_rrc 7 (by omega), hcarry,
      rotateRight_iterate_eight]
    rfl

end Sys2Proof.Machine
end

section
/-! The other arithmetic and logical instructions (42_arithmetic_logical.md): as for the data movement
instructions, each is its effect with a sequential end. The effects are written with bit-vector sums and
differences, by the laws of `addToA`, `compareA` and `stepOperand`. -/

namespace Sys2Proof.Machine

/-! ### Meanings as sequential ends -/

theorem exec_adi (d8 : Byte) (s : State) : exec (.adi d8) s = sequential 2 s (addToA d8 s) := rfl

theorem exec_add (src : Operand) (s : State) :
    exec (.add src) s = sequential 1 s (addToA (rdOp src s) s) := rfl

theorem exec_cpi (d8 : Byte) (s : State) : exec (.cpi d8) s = sequential 2 s (compareA d8 s) := rfl

theorem exec_ani (d8 : Byte) (s : State) : exec (.ani d8) s = sequential 2 s (andToA d8 s) := rfl

theorem exec_ana (src : Operand) (s : State) :
    exec (.ana src) s = sequential 1 s (andToA (rdOp src s) s) := rfl

theorem exec_xra (src : Operand) (s : State) :
    exec (.xra src) s = sequential 1 s (xorToA (rdOp src s) s) := rfl

theorem exec_inr (dst : Operand) (s : State) :
    exec (.inr dst) s = sequential 1 s (stepOperand 1 dst s) := rfl

theorem exec_dcr (dst : Operand) (s : State) :
    exec (.dcr dst) s = sequential 1 s (stepOperand (-1) dst s) := rfl

/-- The exact sum, taken mod 65536, is what a 16-bit sum means. -/
theorem exec_dad (rp : Pair) (s : State) :
    exec (.dad rp) s = sequential 1 s (setCarry (decide (65536 ≤ s.hl.toNat + (rdPair rp s).toNat))
      (wrPair .hl (s.hl + rdPair rp s) s)) := rfl

theorem exec_inx (rp : Pair) (s : State) :
    exec (.inx rp) s = sequential 1 s (wrPair rp (rdPair rp s + 1) s) := rfl

theorem exec_cma (s : State) : exec .cma s = sequential 1 s (s.setA (~~~s.regs.a)) := rfl

theorem exec_stc (s : State) : exec .stc s = sequential 1 s (setCarry true s) := rfl

theorem exec_cmc (s : State) : exec .cmc s = sequential 1 s (setCarry (!s.flags.cy) s) := rfl

/-! ### The boundary of a two-byte instruction -/

/-- R73: with its last byte below the top of memory a two-byte instruction moves `pc` by 2. -/
theorem sequential_two_next {s : State} (t : State) (h : s.pc.toNat ≤ 0xFFFD) :
    sequential 2 s t = .next { t with pc := s.pc + 2 } :=
  sequential_next t (by omega)

/-- R73, R152: from 0xFFFE on a two-byte instruction has no next address. -/
theorem sequential_two_fault {s : State} (t : State) (h : 0xFFFE ≤ s.pc.toNat) :
    sequential 2 s t = .next (raiseFault .outOfBounds s) :=
  sequential_fault t (by omega)

/-! ### ADI, ADD and CPI -/

/-- Settles O41: `decode_adi` and `decode_add`, the ends of a two-byte and a one-byte instruction, and the
sum of `addToA_eq`. -/
theorem adiAndAddAddToTheAccumulator : Obligations.AdiAndAddAddToTheAccumulator := by
  intro d8 src s
  rw [exec_adi, exec_add, addToA_eq, addToA_eq]
  exact ⟨fun rest => ⟨decode_adi d8 rest, decode_add src rest⟩,
    sequential_two_next _, sequential_two_fault _, sequential_one_next _, sequential_one_fault _⟩

/-- R100, R104: the zero flag of a difference says that the two bytes are equal. -/
theorem Flags.setZSP_sub_z (f : Flags) (a b : Byte) : (f.setZSP (a - b)).z = true ↔ a = b :=
  beq_iff_eq.trans sub_eq_zero

/-- Settles O42: `decode_cpi`, the two ends of a two-byte instruction, the difference of `compareA_eq` and
its zero flag. -/
theorem cpiComparesTheImmediate : Obligations.CpiComparesTheImmediate := by
  intro d8 s
  rw [exec_cpi, compareA_eq]
  exact ⟨decode_cpi d8, fun h => ⟨_, sequential_two_next _ h, rfl, s.flags.setZSP_sub_z s.regs.a d8⟩,
    sequential_two_fault _⟩

/-! ### DAD and INX -/

/-- Settles O43: `decode_dad`, and the two ends of a one-byte instruction. -/
theorem dadAddsThePairToHl : Obligations.DadAddsThePairToHl := by
  intro rp s
  rw [exec_dad]
  exact ⟨decode_dad rp, sequential_one_next _, sequential_one_fault _⟩

/-- Settles O45: `decode_inx`, the two ends of a one-byte instruction, and `wrPair` at each pair. -/
theorem inxIncrementsThePairAndNoFlag : Obligations.InxIncrementsThePairAndNoFlag := by
  intro rp s
  rw [exec_inx]
  refine ⟨decode_inx rp, fun h => ⟨_, sequential_one_next _ h, ?_⟩, sequential_one_fault _⟩
  cases rp <;> rfl

/-! ### INR and DCR -/

/-- R107, R108: the flags that come with a stepped operand. The write of the operand touches neither flags
nor draws, so they follow from those of the state before it. -/
theorem drawAc_setZSP_wrOp (o : Operand) (v : Byte) (s : State) :
    drawAc (setZSP v (wrOp o v s)) = { wrOp o v s with
      flags := { s.flags.setZSP v with cy := s.flags.cy, ac := Config.acDraw s.draws }
      draws := s.draws + 1 } := by
  cases o <;> rfl

/-- Settles O44: `decode_inr` and `decode_dcr`, the two ends of a one-byte instruction, and the state after a
stepped operand. -/
theorem inrAndDcrStepTheOperandAndKeepCarry : Obligations.InrAndDcrStepTheOperandAndKeepCarry := by
  intro d s
  rw [exec_inr, exec_dcr, stepOperand_inr, stepOperand_dcr, drawAc_setZSP_wrOp, drawAc_setZSP_wrOp]
  exact ⟨fun rest => ⟨decode_inr d rest, decode_dcr d rest⟩,
    fun h => ⟨sequential_one_next _ h, sequential_one_next _ h⟩,
    fun h => ⟨sequential_one_fault _ h, sequential_one_fault _ h⟩⟩

/-! ### ANI, ANA and XRA -/

/-- Settles O46: the three decodings, and the ends of a two-byte and a one-byte instruction. The effects of
`andToA` and `xorToA` are the statement's own, field by field. -/
theorem aniAnaAndXraCombineAndClearCarry : Obligations.AniAnaAndXraCombineAndClearCarry := by
  intro d8 src s
  rw [exec_ani, exec_ana, exec_xra]
  exact ⟨fun rest => ⟨decode_ani d8 rest, decode_ana src rest, decode_xra src rest⟩,
    sequential_two_next _, sequential_two_fault _,
    fun h => ⟨sequential_one_next _ h, sequential_one_next _ h⟩,
    fun h => ⟨sequential_one_fault _ h, sequential_one_fault _ h⟩⟩

/-! ### CMA, STC and CMC -/

/-- R114: two CMA in a row restore the accumulator, so only `pc` has moved. -/
theorem exec_cma_twice {s : State} (h : s.pc.toNat ≤ 0xFFFD) :
    ∃ t, exec .cma s = .next t ∧ exec .cma t = .next { s with pc := s.pc + 2 } := by
  have hpc : (s.pc + 1).toNat ≤ 0xFFFE := by bv_omega
  refine ⟨_, (exec_cma s).trans (sequential_one_next _ (by omega)), ?_⟩
  rw [exec_cma, sequential_one_next _ hpc, BitVec.add_assoc]
  simp only [State.setA, Regs.set, BitVec.not_not]
  rfl

/-- Settles O49: `decode_cma`, the two ends of a one-byte instruction, the complement as a number, and
`exec_cma_twice`. -/
theorem cmaComplementsTheAccumulatorAndNoFlag : Obligations.CmaComplementsTheAccumulatorAndNoFlag := by
  intro s
  refine ⟨decode_cma, fun h => ⟨_, ?_, BitVec.toNat_not⟩, ?_, exec_cma_twice⟩
  · exact (exec_cma s).trans (sequential_one_next _ h)
  · rw [exec_cma]
    exact sequential_one_fault _

/-- Settles O50: `decode_stc` and `decode_cmc`, and the two ends of a one-byte instruction. -/
theorem stcSetsAndCmcTogglesCarry : Obligations.StcSetsAndCmcTogglesCarry := by
  intro s
  rw [exec_stc, exec_cmc]
  exact ⟨fun rest => ⟨decode_stc rest, decode_cmc rest⟩,
    fun h => ⟨sequential_one_next _ h, sequential_one_next _ h⟩,
    fun h => ⟨sequential_one_fault _ h, sequential_one_fault _ h⟩⟩

end Sys2Proof.Machine
end

section
/-! Decoding the stack, control, input/output and interrupt instructions by format (30_encoding.md). PUSH
stands with the other formats above. -/

namespace Sys2Proof

/-- R51, R53: the POP byte with the selector of `rp` at bits 5..4. -/
theorem decode_pop (rp : StackPair) (rest : List Byte) :
    decode ((0b11#2 ++ rp.sel ++ 0b0001#4) :: rest) = .ok (.pop rp, rest) := by
  have himm (sel : BitVec 2) : immKindOf (0b11#2 ++ sel ++ 0b0001#4) = .none := by
    revert sel; decide
  have hasm : assemble (0b11#2 ++ rp.sel ++ 0b0001#4) 0 = .pop rp := by
    cases rp <;> rfl
  rw [decode_none (himm rp.sel), hasm]

/-! ### A 16-bit address after a fixed opcode byte -/

/-- R54: an opcode byte that is followed by two bytes, the low one first, and builds `mk` of them. -/
theorem decode_immediateWord {op : Byte} {mk : Word → Instr} (himm : immKindOf op = .word)
    (hasm : ∀ v, assemble op v = mk v) (a16 : Word) (rest : List Byte) :
    decode (op :: loByte a16 :: hiByte a16 :: rest) = .ok (mk a16, rest) := by
  rw [decode_word himm, hasm, Machine.wordOf_hiByte_loByte]

theorem decode_jmp (a16 : Word) (rest : List Byte) :
    decode (0xC3 :: loByte a16 :: hiByte a16 :: rest) = .ok (.jmp a16, rest) :=
  decode_immediateWord rfl (fun _ => rfl) a16 rest

theorem decode_jnz (a16 : Word) (rest : List Byte) :
    decode (0xC2 :: loByte a16 :: hiByte a16 :: rest) = .ok (.jnz a16, rest) :=
  decode_immediateWord rfl (fun _ => rfl) a16 rest

theorem decode_call (a16 : Word) (rest : List Byte) :
    decode (0xCD :: loByte a16 :: hiByte a16 :: rest) = .ok (.call a16, rest) :=
  decode_immediateWord rfl (fun _ => rfl) a16 rest

/-! ### A port byte after a fixed opcode byte -/

theorem decode_outPort (port : Byte) (rest : List Byte) :
    decode (0xD3 :: port :: rest) = .ok (.outPort port, rest) :=
  decode_immediateByte rfl (fun _ => rfl) port rest

theorem decode_inPort (port : Byte) (rest : List Byte) :
    decode (0xDB :: port :: rest) = .ok (.inPort port, rest) :=
  decode_immediateByte rfl (fun _ => rfl) port rest

/-! ### A fixed opcode byte alone -/

theorem decode_ret (rest : List Byte) : decode (0xC9 :: rest) = .ok (.ret, rest) := decode_none rfl

theorem decode_ei (rest : List Byte) : decode (0xFB :: rest) = .ok (.ei, rest) := decode_none rfl

theorem decode_di (rest : List Byte) : decode (0xF3 :: rest) = .ok (.di, rest) := decode_none rfl

/-- R57: byte 0x76 is HLT, though it also fits the pattern of MOV. -/
theorem decode_hlt (rest : List Byte) : decode (0x76 :: rest) = .ok (.hlt, rest) := decode_none rfl

end Sys2Proof
end

section
/-! The stack (43_stack_control.md section 1, R141): a checked operation inside a step, what a pop takes
back from a push, and the outcomes of PUSH and POP. -/

namespace Sys2Proof.Machine

/-! ### A checked operation inside a step -/

/-- A check that passes: the step goes on with its value. -/
theorem commit_bind_ok {α : Type} {s : State} {x : Except Fault α} {a : α}
    {f : α → Except Fault State} (h : x = .ok a) : commit s (x >>= f) = commit s (f a) := by
  rw [h]; rfl

/-- A check that raises ends the step with its fault, whatever was to follow (R41, R154). -/
theorem commit_bind_error {α : Type} {s : State} {x : Except Fault α} {e : Fault}
    {f : α → Except Fault State} (h : x = .error e) :
    commit s (x >>= f) = .next (raiseFault e s) := by
  rw [h]; rfl

/-! ### A pop takes back what a push stored -/

/-- Right after a push a pop answers the pushed value and the `sp` from before the push, wherever `pc` has
gone in between. -/
theorem popWord_of_pushBytes {s t : State} {hi lo : Byte} (hm : s.mem.wf = true)
    (hsp : 2 ≤ s.sp.toNat) (hpush : pushBytes hi lo s = .ok t) (pc : Word) :
    popWord { t with pc := pc } = .ok ({ s with mem := t.mem, pc := pc }, wordOf hi lo) := by
  rw [pushBytes_ok hi lo hsp] at hpush
  cases hpush
  have hlow : (s.sp - 2).toNat = s.sp.toNat - 2 := by bv_omega
  have hhigh : s.sp.toNat - 2 + 1 = s.sp.toNat - 1 := by omega
  have hwf := Memory.wf_write hm (addr := s.sp.toNat - 1) (by omega) hi
  rw [popWord_ok (by simp only [hlow]; omega)]
  simp only [hlow, hhigh, BitVec.sub_add_cancel]
  rw [Memory.read_write_ne hwf (by omega), Memory.read_write_same hm, Memory.read_write_same hwf]

/-- The pair's own two bytes change nothing: for the PSW the flags byte unpacks to the flags it was made of
(R16). Memory and `pc` play no part in it. -/
theorem wrStackPair_rdStackPair (k : StackPair) (s : State) (m : Memory) (pc : Word) :
    wrStackPair k (rdStackPair k s).1 (rdStackPair k s).2 { s with mem := m, pc := pc } =
      { s with mem := m, pc := pc } := by
  cases k with
  | bc | de | hl => rfl
  | psw => simp only [wrStackPair, rdStackPair, Flags.ofByte_toByte]

/-! ### PUSH and POP -/

theorem exec_push_next {rp : StackPair} {s t : State} (hpc : s.pc.toNat ≤ 0xFFFE)
    (hpush : pushBytes (rdStackPair rp s).1 (rdStackPair rp s).2 s = .ok t) :
    exec (.push rp) s = .next { t with pc := s.pc + 1 } :=
  (commit_bind_ok (chk16_add_ok (n := 1) (by omega))).trans (commit_bind_ok hpush)

theorem exec_push_fault (rp : StackPair) {s : State} (h : s.pc = 0xFFFF ∨ s.sp.toNat < 2) :
    exec (.push rp) s = .next (raiseFault .outOfBounds s) := by
  by_cases hpc : s.pc.toNat + 1 ≤ 65535
  · have hsp : s.sp.toNat < 2 := h.resolve_left (by bv_omega)
    exact (commit_bind_ok (chk16_add_ok (n := 1) hpc)).trans
      (commit_bind_error (pushBytes_error _ _ hsp))
  · exact commit_bind_error (chk16_add_error (n := 1) (by omega))

theorem exec_pop_next {rp : StackPair} {s t : State} {v : Word} (hpc : s.pc.toNat ≤ 0xFFFE)
    (hpop : popWord s = .ok (t, v)) :
    exec (.pop rp) s =
      .next { wrStackPair rp (hiByte v) (loByte v) t with pc := s.pc + 1 } :=
  (commit_bind_ok hpop).trans (commit_bind_ok (chk16_add_ok (n := 1) (by omega)))

theorem exec_pop_fault (rp : StackPair) {s : State} (h : s.pc = 0xFFFF ∨ 0xFFFE ≤ s.sp.toNat) :
    exec (.pop rp) s = .next (raiseFault .outOfBounds s) := by
  by_cases hsp : s.sp.toNat + 2 ≤ 65535
  · have hpc : s.pc = 0xFFFF := h.resolve_right (by omega)
    exact (commit_bind_ok (popWord_ok hsp)).trans
      (commit_bind_error (chk16_add_error (n := 1) (by rw [hpc]; decide)))
  · exact commit_bind_error (popWord_error (by omega))

/-- R131: POP right after PUSH of the same pair restores the pair and `sp`. -/
theorem exec_pop_after_push (rp : StackPair) {s : State} (hm : s.mem.wf = true)
    (hpc : s.pc.toNat ≤ 0xFFFD) (hsp : 2 ≤ s.sp.toNat) :
    ∃ t, exec (.push rp) s = .next t ∧
      exec (.pop rp) t = .next { s with mem := t.mem, pc := s.pc + 2 } := by
  have hpush := pushBytes_ok (rdStackPair rp s).1 (rdStackPair rp s).2 hsp
  have hpc' : (s.pc + 1).toNat ≤ 0xFFFE := by bv_omega
  refine ⟨_, exec_push_next (by omega) hpush, ?_⟩
  rw [exec_pop_next hpc' (popWord_of_pushBytes hm hsp hpush (s.pc + 1)), hiByte_wordOf, loByte_wordOf,
    wrStackPair_rdStackPair rp s, BitVec.add_assoc]
  rfl

/-- Settles O52: `decode_pop`, the outcomes of POP at each pair, and `exec_pop_after_push`. -/
theorem popLoadsThePairAndUndoesPush : Obligations.PopLoadsThePairAndUndoesPush := by
  intro rp s
  refine ⟨decode_pop rp, fun hpc hsp => ⟨_, _, rfl, rfl, ?_⟩, exec_pop_fault rp,
    exec_pop_after_push rp⟩
  rw [exec_pop_next hpc (popWord_ok (by omega)), hiByte_wordOf, loByte_wordOf]
  cases rp <;> rfl

/-- Settles O51: `decode_push`, and the outcomes of PUSH with the two bytes of `rdStackPair`. -/
theorem pushStoresThePairBelowSp : Obligations.PushStoresThePairBelowSp := by
  intro rp s
  refine ⟨decode_push rp, fun hpc hsp => ⟨(rdStackPair rp s).1, (rdStackPair rp s).2, ?_, ?_⟩,
    exec_push_fault rp⟩
  · cases rp <;> rfl
  · exact exec_push_next hpc (pushBytes_ok _ _ hsp)

end Sys2Proof.Machine
end

section
/-! Control transfer, the input/output stubs, interrupt enable and halt (43_stack_control.md sections 2
to 4). -/

namespace Sys2Proof.Machine

/-! ### JMP and JNZ -/

theorem exec_jmp_next (a16 : Word) {s : State} (h : s.pc.toNat ≤ 0xFFFD) :
    exec (.jmp a16) s = .next { s with pc := a16 } :=
  commit_bind_ok (chk16_add_ok (n := 2) (by omega))

theorem exec_jmp_fault (a16 : Word) {s : State} (h : 0xFFFE ≤ s.pc.toNat) :
    exec (.jmp a16) s = .next (raiseFault .outOfBounds s) :=
  commit_bind_error (chk16_add_error (n := 2) (by omega))

/-- Settles O53: `decode_jmp`, and the two outcomes of JMP. -/
theorem jmpSetsThePc : Obligations.JmpSetsThePc :=
  fun a16 _ => ⟨decode_jmp a16, exec_jmp_next a16, exec_jmp_fault a16⟩

/-- R133: with its operand bytes in range and `z` clear JNZ is JMP. -/
theorem exec_jnz_taken (a16 : Word) {s : State} (h : s.pc.toNat ≤ 0xFFFD) (hz : s.flags.z = false) :
    exec (.jnz a16) s = .next { s with pc := a16 } := by
  have hread : chk16 ((s.pc.toNat : Int) + 2) = .ok (s.pc + 2) := chk16_add_ok (n := 2) (by omega)
  rw [exec, execJnz, commit_bind_ok hread, hz]
  rfl

/-- R133: with its operand bytes in range and `z` set JNZ only moves on by its length. -/
theorem exec_jnz_untaken (a16 : Word) {s : State} (h : s.pc.toNat ≤ 0xFFFD) (hz : s.flags.z = true) :
    exec (.jnz a16) s = sequential 3 s s := by
  have hread : chk16 ((s.pc.toNat : Int) + 2) = .ok (s.pc + 2) := chk16_add_ok (n := 2) (by omega)
  rw [exec, execJnz, commit_bind_ok hread, hz]
  rfl

/-- D11: a missing operand byte faults, taken or not. -/
theorem exec_jnz_fault (a16 : Word) {s : State} (h : 0xFFFE ≤ s.pc.toNat) :
    exec (.jnz a16) s = .next (raiseFault .outOfBounds s) :=
  commit_bind_error (chk16_add_error (n := 2) (by omega))

/-- Settles O54: `decode_jnz`, the jump, the two ends of the sequential advance when it is not taken, and
the missing operand byte. -/
theorem jnzJumpsWhenZeroIsClear : Obligations.JnzJumpsWhenZeroIsClear := by
  intro a16 s
  refine ⟨decode_jnz a16, exec_jnz_taken a16, fun hpc hz => ?_, ?_⟩
  · rw [exec_jnz_untaken a16 (by omega) hz]
    exact sequential_next s (by omega)
  · rintro (hpc | ⟨hpc, hz⟩)
    · exact exec_jnz_fault a16 hpc
    · rw [exec_jnz_untaken a16 (by rw [hpc]; decide) hz]
      exact sequential_fault s (by rw [hpc]; decide)

/-! ### CALL and RET -/

theorem exec_call_next (a16 : Word) {s t : State} (hpc : s.pc.toNat ≤ 0xFFFC)
    (hpush : pushBytes (hiByte (s.pc + 3)) (loByte (s.pc + 3)) s = .ok t) :
    exec (.call a16) s = .next { t with pc := a16 } :=
  (commit_bind_ok (chk16_add_ok (n := 3) (by omega))).trans (commit_bind_ok hpush)

theorem exec_call_fault (a16 : Word) {s : State} (h : 0xFFFD ≤ s.pc.toNat ∨ s.sp.toNat < 2) :
    exec (.call a16) s = .next (raiseFault .outOfBounds s) := by
  by_cases hpc : s.pc.toNat + 3 ≤ 65535
  · have hsp : s.sp.toNat < 2 := h.resolve_left (by omega)
    exact (commit_bind_ok (chk16_add_ok (n := 3) hpc)).trans
      (commit_bind_error (pushBytes_error _ _ hsp))
  · exact commit_bind_error (chk16_add_error (n := 3) (by omega))

/-- Settles O55: `decode_call`, and the outcomes of CALL with the push of `pushBytes_ok`. -/
theorem callPushesTheReturnAddress : Obligations.CallPushesTheReturnAddress :=
  fun a16 _ => ⟨decode_call a16, fun hpc hsp => exec_call_next a16 hpc (pushBytes_ok _ _ hsp),
    exec_call_fault a16⟩

theorem exec_ret_next {s t : State} {v : Word} (hpop : popWord s = .ok (t, v)) :
    exec .ret s = .next { t with pc := v } :=
  commit_bind_ok hpop

theorem exec_ret_fault {s : State} (h : 0xFFFE ≤ s.sp.toNat) :
    exec .ret s = .next (raiseFault .outOfBounds s) :=
  commit_bind_error (popWord_error (by omega))

/-- R135: RET right after CALL goes to the instruction after the CALL and restores `sp`. -/
theorem exec_ret_after_call (a16 : Word) {s : State} (hm : s.mem.wf = true)
    (hpc : s.pc.toNat ≤ 0xFFFC) (hsp : 2 ≤ s.sp.toNat) :
    ∃ t, exec (.call a16) s = .next t ∧ t.pc = a16 ∧
      exec .ret t = .next { s with mem := t.mem, pc := s.pc + 3 } := by
  have hpush := pushBytes_ok (hiByte (s.pc + 3)) (loByte (s.pc + 3)) hsp
  refine ⟨_, exec_call_next a16 hpc hpush, rfl, ?_⟩
  rw [exec_ret_next (popWord_of_pushBytes hm hsp hpush a16), wordOf_hiByte_loByte]

/-- Settles O56: `decode_ret`, the two outcomes of RET, and `exec_ret_after_call`. -/
theorem retPopsThePcAndUndoesCall : Obligations.RetPopsThePcAndUndoesCall :=
  fun a16 _ => ⟨decode_ret, fun hsp => exec_ret_next (popWord_ok (by omega)), exec_ret_fault,
    exec_ret_after_call a16⟩

/-! ### OUT, IN, EI, DI and HLT as sequential ends -/

theorem exec_outPort (port : Byte) (s : State) : exec (.outPort port) s = sequential 2 s s := rfl

theorem exec_inPort (port : Byte) (s : State) : exec (.inPort port) s = sequential 2 s s := rfl

theorem exec_ei (s : State) : exec .ei s = sequential 1 s { s with inte := true } := rfl

theorem exec_di (s : State) : exec .di s = sequential 1 s { s with inte := false } := rfl

theorem exec_hlt (s : State) : exec .hlt s = sequential 1 s { s with halted := true } := rfl

/-- Settles O57: `decode_outPort` and `decode_inPort`, and the two ends of a two-byte instruction. -/
theorem outAndInOnlyAdvanceThePc : Obligations.OutAndInOnlyAdvanceThePc := by
  intro port s
  rw [exec_outPort, exec_inPort]
  exact ⟨fun rest => ⟨decode_outPort port rest, decode_inPort port rest⟩,
    fun h => ⟨sequential_two_next s h, sequential_two_next s h⟩,
    fun h => ⟨sequential_two_fault s h, sequential_two_fault s h⟩⟩

/-- Settles O58: `decode_ei` and `decode_di`, and the two ends of a one-byte instruction. -/
theorem eiSetsAndDiClearsInte : Obligations.EiSetsAndDiClearsInte := by
  intro s
  rw [exec_ei, exec_di]
  exact ⟨fun rest => ⟨decode_ei rest, decode_di rest⟩,
    fun h => ⟨sequential_one_next _ h, sequential_one_next _ h⟩,
    fun h => ⟨sequential_one_fault _ h, sequential_one_fault _ h⟩⟩

/-- R77: a halted machine does not move. -/
theorem step_of_halted {s : State} (h : s.halted = true) : step s = .next s :=
  step_of_not_running (by simp [State.running, h])

/-- Settles O59: `decode_hlt`, the two ends of a one-byte instruction, and `step_of_halted`. -/
theorem hltHaltsOnePastItself : Obligations.HltHaltsOnePastItself := by
  intro s
  rw [exec_hlt]
  exact ⟨decode_hlt, fun h => ⟨_, sequential_one_next _ h, rfl, step_of_halted rfl⟩,
    sequential_one_fault _⟩

end Sys2Proof.Machine
end

section
/-! What a step does to the fault latch (60_exceptions.md section 1): it keeps the latch, or it sets the latch
and changes nothing else. -/

namespace Sys2Proof.Machine

/-- R154: an outcome of a move from `s` either keeps the latch of `s`, or is `s` with a fault latched and
nothing of the move's effects. -/
inductive KeepsLatchOrRaises (s : State) : Host.Outcome State Fault Refusal → Prop
  | keeps {t : State} (h : t.fault = s.fault) : KeepsLatchOrRaises s (.next t)
  | raises (f : Fault) : KeepsLatchOrRaises s (.next (raiseFault f s))

/-! ### The effects of an instruction keep the latch -/

@[simp] theorem aluFlags_fault (r : Byte) (cy : Bool) (s : State) : (aluFlags r cy s).fault = s.fault := rfl

@[simp] theorem stepOperand_fault (delta : Int) (o : Operand) (s : State) :
    (stepOperand delta o s).fault = s.fault :=
  wrOp_fault s o _

/-- The sequential end of effects that keep the latch; its check is the only thing that can raise. -/
theorem sequential_keepsLatchOrRaises {len : Nat} {s t : State} (ht : t.fault = s.fault) :
    KeepsLatchOrRaises s (sequential len s t) := by
  rcases Nat.lt_or_ge 65535 (s.pc.toNat + len) with h | h
  · exact sequential_fault t h ▸ .raises _
  · exact sequential_next t h ▸ .keeps ht

/-! ### The instructions with checks of their own -/

theorem exec_push_keepsLatchOrRaises (rp : StackPair) (s : State) :
    KeepsLatchOrRaises s (exec (.push rp) s) := by
  by_cases h : s.pc = 0xFFFF ∨ s.sp.toNat < 2
  · exact exec_push_fault rp h ▸ .raises _
  · rw [exec_push_next (by bv_omega) (pushBytes_ok _ _ (by omega))]
    exact .keeps rfl

theorem exec_pop_keepsLatchOrRaises (rp : StackPair) (s : State) :
    KeepsLatchOrRaises s (exec (.pop rp) s) := by
  by_cases h : s.pc = 0xFFFF ∨ 0xFFFE ≤ s.sp.toNat
  · exact exec_pop_fault rp h ▸ .raises _
  · rw [exec_pop_next (by bv_omega) (popWord_ok (by omega))]
    exact .keeps (wrStackPair_fault _ rp _ _)

theorem exec_jmp_keepsLatchOrRaises (a16 : Word) (s : State) :
    KeepsLatchOrRaises s (exec (.jmp a16) s) := by
  rcases Nat.lt_or_ge s.pc.toNat 0xFFFE with h | h
  · rw [exec_jmp_next a16 (by omega)]
    exact .keeps rfl
  · exact exec_jmp_fault a16 h ▸ .raises _

theorem exec_jnz_keepsLatchOrRaises (a16 : Word) (s : State) :
    KeepsLatchOrRaises s (exec (.jnz a16) s) := by
  rcases Nat.lt_or_ge s.pc.toNat 0xFFFE with h | h
  · cases hz : s.flags.z with
    | false => exact exec_jnz_taken a16 (by omega) hz ▸ .keeps rfl
    | true => exact exec_jnz_untaken a16 (by omega) hz ▸ sequential_keepsLatchOrRaises rfl
  · exact exec_jnz_fault a16 h ▸ .raises _

theorem exec_call_keepsLatchOrRaises (a16 : Word) (s : State) :
    KeepsLatchOrRaises s (exec (.call a16) s) := by
  by_cases h : 0xFFFD ≤ s.pc.toNat ∨ s.sp.toNat < 2
  · exact exec_call_fault a16 h ▸ .raises _
  · rw [exec_call_next a16 (by omega) (pushBytes_ok _ _ (by omega))]
    exact .keeps rfl

theorem exec_ret_keepsLatchOrRaises (s : State) : KeepsLatchOrRaises s (exec .ret s) := by
  rcases Nat.lt_or_ge s.sp.toNat 0xFFFE with h | h
  · rw [exec_ret_next (popWord_ok (by omega))]
    exact .keeps rfl
  · exact exec_ret_fault h ▸ .raises _

/-! ### Every instruction, every step -/

theorem exec_keepsLatchOrRaises (i : Instr) (s : State) : KeepsLatchOrRaises s (exec i s) := by
  cases i with
  | mov dst _ | mvi dst _ => exact sequential_keepsLatchOrRaises (wrOp_fault s dst _)
  | lxi rp _ | inx rp => exact sequential_keepsLatchOrRaises (wrPair_fault s rp _)
  | lda | sta | ldax | xchg => exact sequential_keepsLatchOrRaises rfl
  | adi | ani | cpi | add | ana | xra => exact sequential_keepsLatchOrRaises (aluFlags_fault _ _ _)
  | inr dst | dcr dst => exact sequential_keepsLatchOrRaises (stepOperand_fault _ dst s)
  | dad | rlc | rrc | cma | stc | cmc => exact sequential_keepsLatchOrRaises rfl
  | outPort | inPort | ei | di | hlt => exact sequential_keepsLatchOrRaises rfl
  | push rp => exact exec_push_keepsLatchOrRaises rp s
  | pop rp => exact exec_pop_keepsLatchOrRaises rp s
  | jmp a16 => exact exec_jmp_keepsLatchOrRaises a16 s
  | jnz a16 => exact exec_jnz_keepsLatchOrRaises a16 s
  | call a16 => exact exec_call_keepsLatchOrRaises a16 s
  | ret => exact exec_ret_keepsLatchOrRaises s
  | undefined op => exact .raises (.unimplementedOpcode op)

/-- R70, R77: a terminal machine does not move; a running one raises in its fetch or executes. -/
theorem step_keepsLatchOrRaises (s : State) : KeepsLatchOrRaises s (step s) := by
  cases hr : s.running with
  | false => exact step_of_not_running hr ▸ .keeps rfl
  | true =>
    cases hf : fetch s with
    | error f => exact step_of_fetch_error hr hf ▸ .raises f
    | ok i => exact step_of_fetch hr hf ▸ exec_keepsLatchOrRaises i s

/-! ### The report -/

/-- R77, R154 (d): a running machine whose latch is set afterwards reports the latched fault. -/
theorem reportOf_of_latched {s t : State} {f : Fault} (hs : s.running = true)
    (ht : t.fault = some f) : reportOf s t = .faulted f := by
  obtain ⟨hfault, hhalted⟩ := s.running_iff.mp hs
  simp only [reportOf, hfault, hhalted, ht]

/-- Settles O15: a step that kept the latch would leave it clear, so by `step_keepsLatchOrRaises` it raised;
and it was a step of a running machine, since any other would have stayed where it was. -/
theorem faultingStepChangesOnlyTheLatch : Obligations.FaultingStepChangesOnlyTheLatch := by
  intro s t f hs hstep ht
  have hmove := step_keepsLatchOrRaises s
  rw [hstep] at hmove
  cases hmove with
  | keeps hkept => simp [hkept, hs] at ht
  | raises g =>
    cases ht
    refine ⟨rfl, reportOf_of_latched ?_ rfl⟩
    by_contra hr
    rw [step_of_not_running (by simpa using hr)] at hstep
    have hstay : s = raiseFault f s := by injection hstep
    rw [hstay] at hs
    cases hs

end Sys2Proof.Machine
end

section
/-! The load after reset (70_reset_and_hazards.md R171): what a row of stored bytes reads back as, and the
host's `load` on a loadable session. -/

namespace Sys2Proof.Machine

/-! ### Reading a row of stored bytes -/

/-- An address behind the last stored byte is left alone. -/
theorem Memory.read_writeBytes_of_ge {m : Memory} (hm : m.wf = true) {addr b : Nat} {bytes : List Byte}
    (h : addr + bytes.length ≤ 65536) (hb : addr + bytes.length ≤ b) :
    (m.writeBytes addr bytes).read b = m.read b := by
  induction bytes generalizing m addr with
  | nil => rfl
  | cons v vs ih =>
    rw [List.length_cons] at h hb
    rw [Memory.writeBytes, ih (Memory.wf_write hm (by omega) v) (by omega) (by omega),
      Memory.read_write_ne hm (by omega)]

/-- The stored bytes read back: the first one since the later writes lie above it, the others by
induction. -/
theorem Memory.read_writeBytes_getElem {m : Memory} (hm : m.wf = true) {addr : Nat} {bytes : List Byte}
    (h : addr + bytes.length ≤ 65536) (i : Nat) (hi : i < bytes.length) :
    (m.writeBytes addr bytes).read (addr + i) = bytes[i] := by
  induction bytes generalizing m addr i with
  | nil => cases hi
  | cons v vs ih =>
    rw [List.length_cons] at h
    have hwrite := Memory.wf_write hm (show addr < 65536 by omega) v
    cases i with
    | zero =>
      rw [Memory.writeBytes, Nat.add_zero, Memory.read_writeBytes_of_lt hwrite (by omega) (by omega)]
      exact Memory.read_write_same hm addr v
    | succ k =>
      rw [Memory.writeBytes, ← Nat.add_assoc, Nat.add_right_comm]
      exact ih hwrite (by omega) k (Nat.lt_of_succ_lt_succ hi)

/-! ### The host's load -/

theorem hostMove_load_done {h : Session} (hload : h.loadable = true) {bytes : List Byte}
    (hlen : bytes.length ≤ 65536) :
    hostMove (.load bytes) h =
      ({ machine := h.machine.loadImage bytes, loadable := false }, .done) := by
  rw [hostMove, if_pos hload, if_pos hlen]

/-- The spec's decision D12: a failed load leaves the session as it is. -/
theorem hostMove_load_tooLong {h : Session} (hload : h.loadable = true) {bytes : List Byte}
    (hlen : 65536 < bytes.length) :
    hostMove (.load bytes) h = (h, .loadFailed .outOfBounds) := by
  rw [hostMove, if_pos hload, if_neg (Nat.not_le.mpr hlen)]

/-- Settles O3: the memory is the image stored from address 0, read by `Memory.read_writeBytes_getElem`
and `Memory.read_writeBytes_of_ge`; too long an image takes the failing branch of the load. -/
theorem loadPlacesTheImageFromAddressZero : Obligations.LoadPlacesTheImageFromAddressZero := by
  intro h bytes hload hwf
  refine ⟨fun hlen => ?_, hostMove_load_tooLong hload⟩
  have hend : 0 + bytes.length ≤ 65536 := by omega
  refine ⟨h.machine.mem.writeBytes 0 bytes, hostMove_load_done hload hlen,
    Memory.wf_writeBytes hwf hend, fun i hi => ?_, fun a ha => ?_⟩
  · simpa using Memory.read_writeBytes_getElem hwf hend i hi
  · exact Memory.read_writeBytes_of_ge hwf hend (by omega)

end Sys2Proof.Machine
end

section
/-! Encode and decode agree (30_encoding.md sections 1 to 4). An opcode byte with an operand is assembled into
an instruction whose encoding is that byte and the operand bytes it asks for; reading bytes assembles them. -/

namespace Sys2Proof

/-- The bytes that follow an opcode byte of this kind, for an operand given as one 16-bit value (R54). -/
def ImmKind.bytes : ImmKind → Word → List Byte
  | .none, _ => []
  | .byte, v => [loByte v]
  | .word, v => [loByte v, hiByte v]

@[simp] theorem ImmKind.length_bytes (k : ImmKind) (v : Word) : (k.bytes v).length = k.size := by
  cases k <;> rfl

/-- The first byte of an instruction's encoding. -/
def Instr.opcode (i : Instr) : Byte := (encode i).headD 0

/-! ### What is assembled from an opcode byte and an operand -/

/-- A row of R55 puts the operand into the immediate alone: the operand's bytes follow the opcode byte that
the row gives with operand 0, and the operand plays no part in being well formed. -/
theorem build_operand {r : OpRow} (hr : r ∈ opTable) (op : Byte) (v : Word) :
    encode (r.build op v) = (r.build op 0).opcode :: r.imm.bytes v ∧
      (r.build op v).wellFormed = (r.build op 0).wellFormed := by
  fin_cases hr <;> exact ⟨rfl, rfl⟩

/-- Every byte value is the opcode byte of what it assembles to. -/
theorem opcode_assemble_zero : ∀ op : Byte, (assemble op 0).opcode = op := by decide

/-- R57: HLT stands before MOV, so no byte value assembles to MOV M,M. -/
theorem wellFormed_assemble_zero : ∀ op : Byte, (assemble op 0).wellFormed = true := by decide

theorem assemble_operand (op : Byte) (v : Word) :
    encode (assemble op v) = (assemble op 0).opcode :: (immKindOf op).bytes v ∧
      (assemble op v).wellFormed = (assemble op 0).wellFormed := by
  simp only [assemble, immKindOf]
  cases hrow : findRow op with
  | some r => exact build_operand (List.mem_of_find?_eq_some hrow) op v
  | none => exact ⟨rfl, rfl⟩

theorem encode_assemble (op : Byte) (v : Word) :
    encode (assemble op v) = op :: (immKindOf op).bytes v := by
  rw [(assemble_operand op v).1, opcode_assemble_zero]

theorem wellFormed_assemble (op : Byte) (v : Word) : (assemble op v).wellFormed = true := by
  rw [(assemble_operand op v).2, wellFormed_assemble_zero]

@[simp] theorem opcode_assemble (op : Byte) (v : Word) : (assemble op v).opcode = op := by
  rw [Instr.opcode, encode_assemble]; rfl

/-! ### What is decoded -/

/-- Everything a successful decoding can be: the first byte, assembled with the operand whose bytes stand
behind it. -/
theorem decode_eq_ok {op : Byte} {bytes rest : List Byte} {i : Instr}
    (h : decode (op :: bytes) = .ok (i, rest)) :
    ∃ v, i = assemble op v ∧ bytes = (immKindOf op).bytes v ++ rest := by
  cases hk : immKindOf op with
  | none =>
    rw [decode_none hk] at h
    cases h
    exact ⟨0, rfl, rfl⟩
  | byte =>
    match bytes with
    | [] => simp [decode, hk] at h
    | b1 :: bytes =>
      rw [decode_byte hk] at h
      cases h
      exact ⟨_, rfl, by simp [ImmKind.bytes]⟩
  | word =>
    match bytes with
    | [] | [_] => simp [decode, hk] at h
    | b1 :: b2 :: bytes =>
      rw [decode_word hk] at h
      cases h
      exact ⟨_, rfl, by simp [ImmKind.bytes]⟩

/-- Settles O6: by `decode_eq_ok` the instruction is assembled from the bytes read, and what is assembled is
well formed and encodes to the bytes it is assembled from. -/
theorem encodeOfDecodeIsTheBytes : Obligations.EncodeOfDecodeIsTheBytes := by
  intro bytes rest i h
  cases bytes with
  | nil => cases h
  | cons op bytes =>
    obtain ⟨v, rfl, rfl⟩ := decode_eq_ok h
    exact ⟨wellFormed_assemble op v, by rw [encode_assemble]; rfl⟩

/-! ### The undefined byte values -/

theorem findRow_undefined : ∀ op ∈ undefinedOpcodes, findRow op = none := by decide

/-- R72, R151: an undefined byte value asks for no operand and assembles to itself. -/
theorem immKindOf_undefined {op : Byte} (h : op ∈ undefinedOpcodes) : immKindOf op = .none := by
  rw [immKindOf, findRow_undefined op h]

theorem assemble_undefined {op : Byte} (h : op ∈ undefinedOpcodes) (v : Word) :
    assemble op v = .undefined op := by
  rw [assemble, findRow_undefined op h]

theorem decode_undefined {op : Byte} (h : op ∈ undefinedOpcodes) (rest : List Byte) :
    decode (op :: rest) = .ok (.undefined op, rest) := by
  rw [decode_none (immKindOf_undefined h), assemble_undefined h]

theorem wellFormed_undefined_iff (op : Byte) :
    (Instr.undefined op).wellFormed = true ↔ op ∈ undefinedOpcodes := by
  simp [Instr.wellFormed]

/-- Settles O7: the count and the absence of repeats are computed; a byte that decodes to `undefined` is
listed because what is decoded is well formed. -/
theorem undefinedBytesAreTheListedOnes : Obligations.UndefinedBytesAreTheListedOnes := by
  refine ⟨rfl, by decide, fun op rest => ⟨fun h => ?_, fun h => decode_undefined h rest⟩⟩
  exact (wellFormed_undefined_iff op).mp (encodeOfDecodeIsTheBytes _ _ _ h).1

/-! ### What is encoded -/

theorem wellFormed_mov_iff (dst src : Operand) :
    (Instr.mov dst src).wellFormed = true ↔ ¬(dst = .mem ∧ src = .mem) := by
  simp [Instr.wellFormed, imp_iff_not_or]

/-- Settles O5: the law of decoding by format at each mnemonic. `wellFormed` excludes MOV M,M and the byte
values that are defined. -/
theorem decodeOfEncodeIsTheInstruction : Obligations.DecodeOfEncodeIsTheInstruction := by
  intro i rest h
  cases i with
  | mov dst src => exact decode_mov ((wellFormed_mov_iff dst src).mp h) rest
  | mvi dst d8 => exact decode_mvi dst d8 rest
  | lxi rp d16 => exact (decode_lxi rp _ _ rest).trans (by rw [Machine.wordOf_hiByte_loByte])
  | lda a16 => exact decode_lda a16 rest
  | sta a16 => exact decode_sta a16 rest
  | ldax rp => exact decode_ldax rp rest
  | xchg => exact decode_xchg rest
  | adi d8 => exact decode_adi d8 rest
  | ani d8 => exact decode_ani d8 rest
  | cpi d8 => exact decode_cpi d8 rest
  | add src => exact decode_add src rest
  | dad rp => exact decode_dad rp rest
  | inr dst => exact decode_inr dst rest
  | dcr dst => exact decode_dcr dst rest
  | inx rp => exact decode_inx rp rest
  | ana src => exact decode_ana src rest
  | xra src => exact decode_xra src rest
  | rlc => exact decode_rlc rest
  | rrc => exact decode_rrc rest
  | cma => exact decode_cma rest
  | stc => exact decode_stc rest
  | cmc => exact decode_cmc rest
  | push rp => exact decode_push rp rest
  | pop rp => exact decode_pop rp rest
  | jmp a16 => exact decode_jmp a16 rest
  | jnz a16 => exact decode_jnz a16 rest
  | call a16 => exact decode_call a16 rest
  | ret => exact decode_ret rest
  | outPort port => exact decode_outPort port rest
  | inPort port => exact decode_inPort port rest
  | ei => exact decode_ei rest
  | di => exact decode_di rest
  | hlt => exact decode_hlt rest
  | undefined op => exact decode_undefined ((wellFormed_undefined_iff op).mp h) rest

/-! ### The selectors -/

/-- Settles O9: the selector tables, evaluated. -/
theorem selectorsNameTheListedOperands : Obligations.SelectorsNameTheListedOperands :=
  ⟨rfl, rfl, rfl, rfl, rfl⟩

end Sys2Proof
end

section
/-! What an instruction does, as one state: the state it leaves when it completes, and the fault it takes
where a place of the R152 table holds. Every rule about all instructions is told from these. -/

namespace Sys2Proof.Machine

/-! ### The state a completing instruction leaves -/

/-- The state after a push that has room (R141). -/
def pushed (hi lo : Byte) (s : State) : State :=
  { s with
    mem := (s.mem.write (s.sp.toNat - 1) hi).write (s.sp.toNat - 2) lo
    sp := s.sp - 2 }

/-- All that an instruction does but moving `pc`. -/
def effect (i : Instr) (s : State) : State :=
  match i with
  | .mov dst src => wrOp dst (rdOp src s) s
  | .mvi dst d8 => wrOp dst d8 s
  | .lxi rp d16 => wrPair rp d16 s
  | .lda a16 => s.setA (s.byteAt a16)
  | .sta a16 => s.setByte a16 s.regs.a
  | .ldax rp => s.setA (s.byteAt (rdIndexPair rp s))
  | .xchg => { s with regs :=
      { s.regs with h := s.regs.d, d := s.regs.h, l := s.regs.e, e := s.regs.l } }
  | .adi d8 => addToA d8 s
  | .ani d8 => andToA d8 s
  | .cpi d8 => compareA d8 s
  | .add src => addToA (rdOp src s) s
  | .dad rp => setCarry (decide (65536 ≤ s.hl.toNat + (rdPair rp s).toNat))
      (wrPair .hl (s.hl + rdPair rp s) s)
  | .inr dst => stepOperand 1 dst s
  | .dcr dst => stepOperand (-1) dst s
  | .inx rp => wrPair rp (rdPair rp s + 1) s
  | .ana src => andToA (rdOp src s) s
  | .xra src => xorToA (rdOp src s) s
  | .rlc => setCarry (s.regs.a.getLsbD 7) (s.setA (s.regs.a.rotateLeft 1))
  | .rrc => setCarry (s.regs.a.getLsbD 0) (s.setA (s.regs.a.rotateRight 1))
  | .cma => s.setA (~~~s.regs.a)
  | .stc => setCarry true s
  | .cmc => setCarry (!s.flags.cy) s
  | .push rp => pushed (rdStackPair rp s).1 (rdStackPair rp s).2 s
  | .pop rp => wrStackPair rp (s.mem.read (s.sp.toNat + 1)) (s.mem.read s.sp.toNat)
      { s with sp := s.sp + 2 }
  | .call _ => pushed (hiByte (s.pc + 3)) (loByte (s.pc + 3)) s
  | .ret => { s with sp := s.sp + 2 }
  | .ei => { s with inte := true }
  | .di => { s with inte := false }
  | .hlt => { s with halted := true }
  | .jmp _ | .jnz _ | .outPort _ | .inPort _ | .undefined _ => s

/-- Where `pc` goes: to the target of a transfer of control, else on by the length (R73). -/
def nextPc (i : Instr) (s : State) : Word :=
  match i with
  | .jmp a16 | .call a16 => a16
  | .jnz a16 => if s.flags.z then s.pc + 3 else a16
  | .ret => wordOf (s.mem.read (s.sp.toNat + 1)) (s.mem.read s.sp.toNat)
  | i => s.pc + BitVec.ofNat 16 i.length

/-- The state after an instruction that completes. -/
def completed (i : Instr) (s : State) : State := { effect i s with pc := nextPc i s }

/-- The instruction's meaning is its effect with a sequential end, without a check of its own. -/
def endsSequentially : Instr → Bool
  | .push _ | .pop _ | .jmp _ | .jnz _ | .call _ | .ret | .undefined _ => false
  | _ => true

theorem exec_sequential {i : Instr} (h : endsSequentially i = true) (s : State) :
    exec i s = sequential i.length s (effect i s) := by
  cases i with
  | rlc => exact exec_rlc s
  | rrc => exact exec_rrc s
  | push | pop | jmp | jnz | call | ret | undefined => cases h
  | _ => rfl

/-! ### The places of the R152 table, by kind of instruction -/

theorem outOfBoundsPlace_sequential {i : Instr} (h : endsSequentially i = true) (s : State) :
    outOfBoundsPlace i s = true ↔ 65535 < s.pc.toNat + i.length := by
  have hplace : outOfBoundsPlace i s = (decide (s.pc.toNat + (i.length - 1) > 65535) ||
      decide (s.pc.toNat + i.length > 65535)) := by
    cases i with
    | push | pop | jmp | jnz | call | ret | undefined => cases h
    | _ => simp [outOfBoundsPlace, isUndefined, transfersControl, pushes, pops]
  simp only [hplace, Bool.or_eq_true, decide_eq_true_eq]
  omega

/-- The table, place by place, with the questions about the instruction's kind as they stand. -/
theorem outOfBoundsPlace_iff (i : Instr) (s : State) :
    outOfBoundsPlace i s = true ↔ isUndefined i = false ∧
      (65535 < s.pc.toNat + (i.length - 1) ∨
        transfersControl i s = false ∧ 65535 < s.pc.toNat + i.length ∨
        (∃ a16, i = .call a16) ∧ 0xFFFD ≤ s.pc.toNat ∨
        pushes i = true ∧ s.sp.toNat < 2 ∨ pops i = true ∧ 0xFFFE ≤ s.sp.toNat) := by
  simp only [outOfBoundsPlace, Bool.and_eq_true, Bool.or_eq_true, Bool.not_eq_true', decide_eq_true_eq,
    or_assoc]
  cases i <;> simp

theorem outOfBoundsPlace_push (rp : StackPair) (s : State) :
    outOfBoundsPlace (.push rp) s = true ↔ s.pc = 0xFFFF ∨ s.sp.toNat < 2 := by
  have hlen : (Instr.push rp).length = 1 := rfl
  simp only [outOfBoundsPlace_iff, isUndefined, transfersControl, pushes, pops, hlen, reduceCtorEq,
    exists_false, false_and, true_and, false_or, or_false]
  bv_omega

theorem outOfBoundsPlace_pop (rp : StackPair) (s : State) :
    outOfBoundsPlace (.pop rp) s = true ↔ s.pc = 0xFFFF ∨ 0xFFFE ≤ s.sp.toNat := by
  have hlen : (Instr.pop rp).length = 1 := rfl
  simp only [outOfBoundsPlace_iff, isUndefined, transfersControl, pushes, pops, hlen, reduceCtorEq,
    exists_false, false_and, true_and, false_or]
  bv_omega

theorem outOfBoundsPlace_jmp (a16 : Word) (s : State) :
    outOfBoundsPlace (.jmp a16) s = true ↔ 0xFFFE ≤ s.pc.toNat := by
  have hlen : (Instr.jmp a16).length = 3 := rfl
  simp only [outOfBoundsPlace_iff, isUndefined, transfersControl, pushes, pops, hlen, reduceCtorEq,
    exists_false, false_and, true_and, or_false]
  omega

theorem outOfBoundsPlace_jnz (a16 : Word) (s : State) :
    outOfBoundsPlace (.jnz a16) s = true ↔
      0xFFFE ≤ s.pc.toNat ∨ s.pc = 0xFFFD ∧ s.flags.z = true := by
  have hlen : (Instr.jnz a16).length = 3 := rfl
  simp only [outOfBoundsPlace_iff, isUndefined, transfersControl, pushes, pops, hlen, reduceCtorEq,
    exists_false, false_and, true_and, or_false]
  cases s.flags.z with
  | false =>
    simp only [Bool.not_false, reduceCtorEq, false_and, and_false, or_false]
    omega
  | true =>
    simp only [Bool.not_true, true_and, and_true]
    bv_omega

theorem outOfBoundsPlace_call (a16 : Word) (s : State) :
    outOfBoundsPlace (.call a16) s = true ↔ 0xFFFD ≤ s.pc.toNat ∨ s.sp.toNat < 2 := by
  have hlen : (Instr.call a16).length = 3 := rfl
  simp only [outOfBoundsPlace_iff, isUndefined, transfersControl, pushes, pops, hlen, reduceCtorEq,
    exists_apply_eq_apply', false_and, true_and, false_or, or_false]
  omega

theorem outOfBoundsPlace_ret (s : State) :
    outOfBoundsPlace .ret s = true ↔ 0xFFFE ≤ s.sp.toNat := by
  have hlen : Instr.ret.length = 1 := rfl
  simp only [outOfBoundsPlace_iff, isUndefined, transfersControl, pushes, pops, hlen, reduceCtorEq,
    exists_false, false_and, true_and, false_or]
  bv_omega

/-! ### Everything an instruction can do -/

theorem exec_place {i : Instr} {s : State} (h : outOfBoundsPlace i s = true) :
    exec i s = .next (raiseFault .outOfBounds s) := by
  cases i with
  | push rp => exact exec_push_fault rp ((outOfBoundsPlace_push rp s).mp h)
  | pop rp => exact exec_pop_fault rp ((outOfBoundsPlace_pop rp s).mp h)
  | jmp a16 => exact exec_jmp_fault a16 ((outOfBoundsPlace_jmp a16 s).mp h)
  | jnz a16 =>
    rcases (outOfBoundsPlace_jnz a16 s).mp h with hpc | ⟨hpc, hz⟩
    · exact exec_jnz_fault a16 hpc
    · rw [exec_jnz_untaken a16 (by rw [hpc]; decide) hz]
      exact sequential_fault s (by rw [hpc]; decide)
  | call a16 => exact exec_call_fault a16 ((outOfBoundsPlace_call a16 s).mp h)
  | ret => exact exec_ret_fault ((outOfBoundsPlace_ret s).mp h)
  | undefined op => cases h
  | _ =>
    rw [exec_sequential rfl]
    exact sequential_fault _ ((outOfBoundsPlace_sequential rfl s).mp h)

theorem exec_jnz_completes (a16 : Word) {s : State} (hpc : s.pc.toNat ≤ 0xFFFD)
    (hlast : ¬(s.pc = 0xFFFD ∧ s.flags.z = true)) :
    exec (.jnz a16) s = .next (completed (.jnz a16) s) := by
  have hnext : completed (.jnz a16) s = { s with pc := if s.flags.z then s.pc + 3 else a16 } := rfl
  rw [hnext]
  by_cases hz : s.flags.z = true
  · have hne : s.pc ≠ 0xFFFD := fun heq => hlast ⟨heq, hz⟩
    have hpc' : s.pc.toNat + 3 ≤ 65535 := by bv_omega
    rw [exec_jnz_untaken a16 hpc hz, sequential_next s hpc', if_pos hz]
    rfl
  · rw [exec_jnz_taken a16 hpc (by simpa using hz), if_neg hz]

theorem exec_completes {i : Instr} {s : State} (hdef : isUndefined i = false)
    (h : outOfBoundsPlace i s = false) : exec i s = .next (completed i s) := by
  rw [← Bool.not_eq_true] at h
  cases i with
  | push rp =>
    rw [outOfBoundsPlace_push] at h
    exact exec_push_next (by bv_omega) (pushBytes_ok _ _ (by omega))
  | pop rp =>
    rw [outOfBoundsPlace_pop] at h
    rw [exec_pop_next (by bv_omega) (popWord_ok (by omega)), hiByte_wordOf, loByte_wordOf]
    rfl
  | jmp a16 =>
    rw [outOfBoundsPlace_jmp] at h
    exact exec_jmp_next a16 (by omega)
  | jnz a16 =>
    rw [outOfBoundsPlace_jnz, not_or] at h
    exact exec_jnz_completes a16 (by omega) h.2
  | call a16 =>
    rw [outOfBoundsPlace_call] at h
    exact exec_call_next a16 (by omega) (pushBytes_ok _ _ (by omega))
  | ret =>
    rw [outOfBoundsPlace_ret] at h
    exact exec_ret_next (popWord_ok (by omega))
  | undefined op => cases hdef
  | _ =>
    rw [outOfBoundsPlace_sequential rfl] at h
    rw [exec_sequential rfl]
    exact sequential_next _ (by omega)

/-- Everything an instruction can do: it completes, it takes `OutOfBounds` at a place of the table, or it is
an undefined byte value and takes its fault. -/
theorem exec_cases {i : Instr} {s t : State} (h : exec i s = .next t) :
    (isUndefined i = false ∧ outOfBoundsPlace i s = false ∧ t = completed i s) ∨
      (outOfBoundsPlace i s = true ∧ t = raiseFault .outOfBounds s) ∨
      ∃ op, i = .undefined op ∧ t = raiseFault (.unimplementedOpcode op) s := by
  cases hplace : outOfBoundsPlace i s with
  | true =>
    rw [exec_place hplace] at h
    cases h
    exact .inr (.inl ⟨rfl, rfl⟩)
  | false =>
    cases hdef : isUndefined i with
    | false =>
      rw [exec_completes hdef hplace] at h
      cases h
      exact .inl ⟨rfl, rfl, rfl⟩
    | true =>
      cases i with
      | undefined op => cases h; exact .inr (.inr ⟨op, rfl, rfl⟩)
      | _ => cases hdef

/-- The two shapes of the state after an instruction, for what every fault leaves alone. -/
theorem exec_completed_or_raised {i : Instr} {s t : State} (h : exec i s = .next t) :
    t = completed i s ∨ ∃ f, t = raiseFault f s := by
  rcases exec_cases h with ⟨-, -, rfl⟩ | ⟨-, rfl⟩ | ⟨op, -, rfl⟩
  · exact .inl rfl
  · exact .inr ⟨_, rfl⟩
  · exact .inr ⟨_, rfl⟩

/-- The place depends on `pc`, `sp` and `z` only. -/
theorem outOfBoundsPlace_congr (i : Instr) {s t : State} (hpc : t.pc = s.pc) (hsp : t.sp = s.sp)
    (hz : t.flags.z = s.flags.z) : outOfBoundsPlace i t = outOfBoundsPlace i s := by
  have htransfer : transfersControl i t = transfersControl i s := by
    cases i with
    | jnz a16 => simp only [transfersControl, hz]
    | _ => rfl
  simp only [outOfBoundsPlace, hpc, hsp, htransfer]

end Sys2Proof.Machine
end

section
/-! The rules of all instructions that name no memory: the places of `OutOfBounds` (60_exceptions.md section 1), the
advance of `pc` (40_fetch_decode_step.md section 1), and who writes which element (10_state.md). Each is told of
the effect of an instruction, case by case, and carried to `exec`. -/

namespace Sys2Proof.Machine

/-! ### The frames of an effect -/

@[simp] theorem effect_fault (i : Instr) (s : State) : (effect i s).fault = s.fault := by
  cases i with
  | mov dst _ | mvi dst _ | inr dst | dcr dst => exact wrOp_fault s dst _
  | lxi rp _ | inx rp => exact wrPair_fault s rp _
  | pop rp => exact wrStackPair_fault _ rp _ _
  | _ => rfl

theorem effect_halted {i : Instr} (h : i ≠ .hlt) (s : State) : (effect i s).halted = s.halted := by
  cases i with
  | mov dst _ | mvi dst _ | inr dst | dcr dst => exact wrOp_halted s dst _
  | lxi rp _ | inx rp => exact wrPair_halted s rp _
  | pop rp => exact wrStackPair_halted _ rp _ _
  | hlt => exact absurd rfl h
  | _ => rfl

/-- R17: what an instruction other than EI and DI does, it does for any value of `inte`. -/
theorem effect_with_inte {i : Instr} (hei : i ≠ .ei) (hdi : i ≠ .di) (s : State) (b : Bool) :
    effect i { s with inte := b } = { effect i s with inte := b } := by
  cases i with
  | mov dst _ | mvi dst _ | inr dst | dcr dst => cases dst <;> rfl
  | lxi rp _ | inx rp | pop rp => cases rp <;> rfl
  | ei => exact absurd rfl hei
  | di => exact absurd rfl hdi
  | _ => rfl

theorem effect_inte {i : Instr} (hei : i ≠ .ei) (hdi : i ≠ .di) (s : State) :
    (effect i s).inte = s.inte := by
  have hsame : effect i s = { effect i s with inte := s.inte } := effect_with_inte hei hdi s s.inte
  rw [hsame]

/-! ### Registers and `sp` -/

theorem wrOp_regs_get {o : Operand} {r : Reg8} (h : o ≠ .reg r) (v : Byte) (s : State) :
    (wrOp o v s).regs.get r = s.regs.get r := by
  cases o with
  | reg n => exact Regs.get_set_ne s.regs (fun heq => h (congrArg Operand.reg heq.symm)) v
  | mem => rfl

/-- Two registers are written; any other keeps its value. -/
theorem Regs.get_set_two (r : Regs) {n m k : Reg8} (h : k ∉ [n, m]) (v w : Byte) :
    ((r.set n v).set m w).get k = r.get k := by
  simp only [List.mem_cons, List.not_mem_nil, or_false, not_or] at h
  rw [Regs.get_set_ne _ h.2, Regs.get_set_ne _ h.1]

/-- R75: the registers outside the pair, as the destinations of LXI list them. -/
theorem wrPair_regs_get {k : Pair} {v : Word} {r : Reg8} (h : r ∉ writtenRegs (.lxi k v)) (s : State) :
    (wrPair k v s).regs.get r = s.regs.get r := by
  cases k with
  | bc | de | hl => exact Regs.get_set_two s.regs h (hiByte v) (loByte v)
  | sp => rfl

theorem wrStackPair_regs_get {k : StackPair} {r : Reg8} (h : r ∉ writtenRegs (.pop k)) (hi lo : Byte)
    (s : State) : (wrStackPair k hi lo s).regs.get r = s.regs.get r := by
  cases k with
  | bc | de | hl => exact Regs.get_set_two s.regs h hi lo
  | psw => exact Regs.get_set_ne s.regs (List.ne_of_not_mem_cons h) _

/-- R91: XCHG writes two pairs. -/
theorem effect_xchg_regs_get {r : Reg8} (h : r ∉ writtenRegs .xchg) (s : State) :
    (effect .xchg s).regs.get r = s.regs.get r := by
  have hde : r ∉ [Reg8.d, .e] := fun hr => h (List.mem_append_left [Reg8.h, .l] hr)
  have hhl : r ∉ [Reg8.h, .l] := fun hr => h (List.mem_append_right [Reg8.d, .e] hr)
  exact (Regs.get_set_two _ hhl _ _).trans (Regs.get_set_two s.regs hde s.regs.h s.regs.l)

theorem effect_regs_get {i : Instr} {r : Reg8} (h : r ∉ writtenRegs i) (s : State) :
    (effect i s).regs.get r = s.regs.get r := by
  cases i with
  | mov dst _ | mvi dst _ | inr dst | dcr dst =>
    exact wrOp_regs_get (by rintro rfl; exact h (List.mem_singleton_self r)) _ s
  | lda | ldax | adi | ani | add | ana | xra | rlc | rrc | cma =>
    exact Regs.get_set_ne s.regs (List.ne_of_not_mem_cons h) _
  | lxi rp _ => exact wrPair_regs_get h s
  | inx rp => exact wrPair_regs_get (k := rp) (by cases rp <;> exact h) s
  | dad rp => exact wrPair_regs_get (k := .hl) h s
  | pop rp => exact wrStackPair_regs_get h _ _ _
  | xchg => exact effect_xchg_regs_get h s
  | _ => rfl

theorem effect_sp {i : Instr} (h : writesSp i = false) (s : State) : (effect i s).sp = s.sp := by
  cases i with
  | mov dst _ | mvi dst _ | inr dst | dcr dst => exact wrOp_sp s dst _
  | lxi rp _ | inx rp =>
    cases rp with
    | sp => cases h
    | _ => rfl
  | push | pop | call | ret => cases h
  | _ => rfl

/-! ### Flags and draws -/

theorem effect_zsp {i : Instr} (h : writesZsp i = false) (s : State) :
    (effect i s).flags.z = s.flags.z ∧ (effect i s).flags.s = s.flags.s ∧
      (effect i s).flags.p = s.flags.p ∧ (effect i s).flags.ac = s.flags.ac ∧
      (effect i s).draws = s.draws := by
  cases i with
  | mov dst _ | mvi dst _ => cases dst <;> exact ⟨rfl, rfl, rfl, rfl, rfl⟩
  | lxi rp _ | inx rp => cases rp <;> exact ⟨rfl, rfl, rfl, rfl, rfl⟩
  | pop rp =>
    cases rp with
    | psw => cases h
    | _ => exact ⟨rfl, rfl, rfl, rfl, rfl⟩
  | adi | ani | cpi | add | ana | xra | inr | dcr => cases h
  | _ => exact ⟨rfl, rfl, rfl, rfl, rfl⟩

theorem effect_cy {i : Instr} (h : writesCarry i = false) (s : State) :
    (effect i s).flags.cy = s.flags.cy := by
  cases i with
  | mov dst _ | mvi dst _ | inr dst | dcr dst => cases dst <;> rfl
  | lxi rp _ | inx rp => cases rp <;> rfl
  | pop rp =>
    cases rp with
    | psw => cases h
    | _ => rfl
  | adi | ani | cpi | add | ana | xra | dad | rlc | rrc | stc | cmc => cases h
  | _ => rfl

/-! ### The advance of `pc` -/

theorem nextPc_of_not_transfers {i : Instr} {s : State} (h : transfersControl i s = false) :
    nextPc i s = s.pc + BitVec.ofNat 16 i.length := by
  cases i with
  | jnz a16 =>
    have hz : s.flags.z = true := by simpa [transfersControl] using h
    exact if_pos hz
  | jmp | call | ret => cases h
  | _ => rfl

/-- Where no place of R152 holds, an instruction that moves on has a next address (R73). -/
theorem room_of_not_place {i : Instr} {s : State} (hdef : isUndefined i = false)
    (hplace : outOfBoundsPlace i s = false) (h : transfersControl i s = false) :
    s.pc.toNat + i.length ≤ 65535 := by
  rw [← Bool.not_eq_true, outOfBoundsPlace_iff] at hplace
  by_contra hroom
  exact hplace ⟨hdef, .inr (.inl ⟨h, by omega⟩)⟩

/-! ### The statements -/

/-- Settles O16: `exec_place` where a place of the table holds, `exec_completes` elsewhere. -/
theorem outOfBoundsExactlyAtTheListedPlaces : Obligations.OutOfBoundsExactlyAtTheListedPlaces :=
  fun i s hdef =>
    ⟨exec_place, fun h => ⟨completed i s, exec_completes hdef h, effect_fault i s⟩⟩

/-- Settles O17: the completed instruction moves on by its length, and there is room for it. -/
theorem sequentialAdvanceIsTheLength : Obligations.SequentialAdvanceIsTheLength := by
  intro i s t hdef hplace htransfer h
  have hroom := room_of_not_place hdef hplace htransfer
  rw [exec_completes hdef hplace] at h
  cases h
  rw [completed, nextPc_of_not_transfers htransfer, BitVec.toNat_add, BitVec.toNat_ofNat]
  omega

/-- R17: an instruction's places and its undefined byte's fault do not read `inte` either. -/
theorem exec_with_inte {i : Instr} {s t : State} (hei : i ≠ .ei) (hdi : i ≠ .di)
    (h : exec i s = .next t) (b : Bool) :
    exec i { s with inte := b } = .next { t with inte := b } := by
  have hplace' : outOfBoundsPlace i { s with inte := b } = outOfBoundsPlace i s :=
    outOfBoundsPlace_congr i rfl rfl rfl
  rcases exec_cases h with ⟨hdef, hplace, rfl⟩ | ⟨hplace, rfl⟩ | ⟨op, rfl, rfl⟩
  · have hpc : nextPc i { s with inte := b } = nextPc i s := by cases i <;> rfl
    rw [exec_completes hdef (hplace'.trans hplace), completed, effect_with_inte hei hdi, hpc]
    rfl
  · rw [exec_place (hplace'.trans hplace)]
    rfl
  · rfl

theorem exec_inte {i : Instr} {s t : State} (hei : i ≠ .ei) (hdi : i ≠ .di)
    (h : exec i s = .next t) : t.inte = s.inte := by
  rcases exec_completed_or_raised h with rfl | ⟨f, rfl⟩
  · exact effect_inte hei hdi s
  · rfl

/-- Settles O21: `exec_inte` and `exec_with_inte`; EI and DI where they complete. -/
theorem inteIsWrittenByEiAndDiAndReadByNothing : Obligations.InteIsWrittenByEiAndDiAndReadByNothing := by
  intro i s t h
  refine ⟨fun hei hdi => ⟨exec_inte hei hdi h, exec_with_inte hei hdi h⟩, ?_, ?_⟩
  · rintro rfl - hplace
    rw [exec_completes rfl hplace] at h
    cases h
    rfl
  · rintro rfl - hplace
    rw [exec_completes rfl hplace] at h
    cases h
    rfl

/-- Settles O22: the frames of the effect; moving `pc` or taking a fault writes no register and no `sp`. -/
theorem registersOutsideTheDestinationAreKept : Obligations.RegistersOutsideTheDestinationAreKept := by
  intro i s t h
  rcases exec_completed_or_raised h with rfl | ⟨f, rfl⟩
  · exact ⟨fun r hr => effect_regs_get hr s, fun hsp => effect_sp hsp s⟩
  · exact ⟨fun _ _ => rfl, fun _ => rfl⟩

/-- Settles O23: the frames of the effect; moving `pc` or taking a fault writes no flag and draws nothing. -/
theorem flagsAreWrittenOnlyByTheListedInstructions :
    Obligations.FlagsAreWrittenOnlyByTheListedInstructions := by
  intro i s t h
  rcases exec_completed_or_raised h with rfl | ⟨f, rfl⟩
  · exact ⟨fun hzsp => effect_zsp hzsp s, fun hcy => effect_cy hcy s⟩
  · exact ⟨fun _ => ⟨rfl, rfl, rfl, rfl, rfl⟩, fun _ => rfl⟩

theorem exec_halted {i : Instr} {s t : State} (hi : i ≠ .hlt) (h : exec i s = .next t) :
    t.halted = s.halted := by
  rcases exec_completed_or_raised h with rfl | ⟨f, rfl⟩
  · exact effect_halted hi s
  · rfl

/-- Settles O25: `exec_halted`, and the latch by `exec_cases`, whose completing case keeps it. -/
theorem haltedAndTheLatchChangeOnlyAsStated : Obligations.HaltedAndTheLatchChangeOnlyAsStated := by
  intro i s t h
  refine ⟨fun hi => exec_halted hi h, fun hlatch => ?_⟩
  rcases exec_cases h with ⟨-, -, rfl⟩ | ⟨hplace, rfl⟩ | ⟨op, rfl, rfl⟩
  · exact absurd (effect_fault i s) hlatch
  · exact .inl ⟨rfl, hplace⟩
  · exact .inr ⟨op, rfl, rfl⟩

end Sys2Proof.Machine
end

section
/-! The memory port (20_memory.md section 6): memory after an instruction is what the port's writes make of it, so the
frame of memory and the canonical form are told from the list of accesses. -/

namespace Sys2Proof.Machine

/-- Settles O27: the law of the canonical form. -/
theorem canonicalMemoryIsDeterminedByItsReads : Obligations.CanonicalMemoryIsDeterminedByItsReads :=
  fun _ _ => Memory.eq_of_read_eq

/-! ### Memory after a list of accesses -/

theorem Memory.afterAccesses_append (m : Memory) (as bs : List PortAccess) :
    m.afterAccesses (as ++ bs) = (m.afterAccesses as).afterAccesses bs := by
  induction as generalizing m with
  | nil => rfl
  | cons a as ih =>
    simp only [List.cons_append, Memory.afterAccesses]
    cases a.dir with
    | read => exact ih m
    | write => exact ih _

theorem Memory.afterAccesses_reads {as : List PortAccess} (h : ∀ x ∈ as, x.dir = .read) (m : Memory) :
    m.afterAccesses as = m := by
  induction as with
  | nil => rfl
  | cons a as ih =>
    rw [List.forall_mem_cons] at h
    simp only [Memory.afterAccesses, h.1, ih h.2]

theorem Memory.wf_afterAccesses {m : Memory} (hm : m.wf = true) {as : List PortAccess}
    (h : ∀ x ∈ as, x.addr ≤ 65535) : (m.afterAccesses as).wf = true := by
  induction as generalizing m with
  | nil => exact hm
  | cons a as ih =>
    rw [List.forall_mem_cons] at h
    simp only [Memory.afterAccesses]
    cases a.dir with
    | read => exact ih hm h.2
    | write => exact ih (Memory.wf_write hm (by omega) a.data) h.2

/-- An address that no access writes reads as before. -/
theorem Memory.read_afterAccesses {m : Memory} (hm : m.wf = true) {as : List PortAccess}
    (h : ∀ x ∈ as, x.addr ≤ 65535) {b : Nat} (hb : ∀ x ∈ as, x.dir = .write → x.addr ≠ b) :
    (m.afterAccesses as).read b = m.read b := by
  induction as generalizing m with
  | nil => rfl
  | cons a as ih =>
    rw [List.forall_mem_cons] at h hb
    simp only [Memory.afterAccesses]
    cases hdir : a.dir with
    | read => exact ih hm h.2 hb.2
    | write =>
      exact (ih (Memory.wf_write hm (by omega) a.data) h.2 hb.2).trans
        (Memory.read_write_ne hm (Ne.symm (hb.1 hdir)) a.data)

/-! ### The accesses of an instruction -/

theorem fetchReads_dir (i : Instr) (s : State) : ∀ x ∈ fetchReads i s, x.dir = .read := by
  refine List.forall_mem_cons.mpr ⟨rfl, List.forall_mem_map.mpr fun _ _ => rfl⟩

theorem operandRead_dir (o : Operand) (s : State) : ∀ x ∈ operandRead o s, x.dir = .read := by
  cases o with
  | reg r => exact List.forall_mem_nil _
  | mem => exact List.forall_mem_singleton.mpr rfl

theorem popReads_dir (s : State) : ∀ x ∈ popReads s, x.dir = .read :=
  List.forall_mem_cons.mpr ⟨rfl, List.forall_mem_singleton.mpr rfl⟩

/-- The effect on memory is that of the data and stack accesses. INR and DCR are written in the port's view
with a bit-vector sum and difference, as by `stepOperand_inr` and `stepOperand_dcr`. -/
theorem effect_mem (i : Instr) (s : State) :
    (effect i s).mem = s.mem.afterAccesses (dataAccesses .listed i s) := by
  cases i with
  | mov dst src => cases dst <;> cases src <;> rfl
  | mvi dst d8 => cases dst <;> rfl
  | inr dst => rw [effect, stepOperand_inr]; cases dst <;> rfl
  | dcr dst => rw [effect, stepOperand_dcr]; cases dst <;> rfl
  | add src | ana src | xra src => cases src <;> rfl
  | lxi rp _ | inx rp | pop rp => cases rp <;> rfl
  | _ => rfl

theorem afterAccesses_portAccesses (o : PushOrder) (i : Instr) (s : State) (m : Memory) :
    m.afterAccesses (portAccesses o i s) = m.afterAccesses (dataAccesses o i s) := by
  rw [portAccesses, Memory.afterAccesses_append, Memory.afterAccesses_reads (fetchReads_dir i s)]

/-- Either order of a push's writes makes the same memory of a canonical one. -/
theorem afterAccesses_dataAccesses_order {i : Instr} {s : State} (hm : s.mem.wf = true)
    (hplace : outOfBoundsPlace i s = false) (o : PushOrder) :
    s.mem.afterAccesses (dataAccesses o i s) = s.mem.afterAccesses (dataAccesses .listed i s) := by
  rw [← Bool.not_eq_true] at hplace
  cases i with
  | push rp =>
    rw [outOfBoundsPlace_push] at hplace
    exact Memory.afterAccesses_pushWrites hm (by omega) _ _ o
  | call a16 =>
    rw [outOfBoundsPlace_call] at hplace
    exact Memory.afterAccesses_pushWrites hm (by omega) _ _ o
  | _ => rfl

/-- Settles O29: the fetch reads change nothing, and the other accesses are the effect on memory. -/
theorem portWritesAreTheWholeMemoryEffect : Obligations.PortWritesAreTheWholeMemoryEffect := by
  intro i s t hdef hplace h
  rw [exec_completes hdef hplace] at h
  cases h
  have hlisted : (completed i s).mem = s.mem.afterAccesses (dataAccesses .listed i s) := effect_mem i s
  refine ⟨hlisted.trans (afterAccesses_portAccesses _ i s _).symm, fun hm o => ?_⟩
  rw [hlisted, afterAccesses_portAccesses, afterAccesses_dataAccesses_order hm hplace o]

/-! ### Range and order of the accesses -/

/-- The access is at an address of memory, and as a read it carries the byte that stands there. -/
def PortAccess.fits (s : State) (x : PortAccess) : Prop :=
  x.addr ≤ 65535 ∧ (x.dir = .read → x.data = s.mem.read x.addr)

theorem portRead_fits {source : PortSource} {addr : Nat} {s : State} (h : addr ≤ 65535) :
    (portRead source addr s).fits s := ⟨h, fun _ => rfl⟩

theorem portWrite_fits {source : PortSource} {addr : Nat} {v : Byte} {s : State} (h : addr ≤ 65535) :
    (portWrite source addr v).fits s := ⟨h, nofun⟩

theorem Word.toNat_le (w : Word) : w.toNat ≤ 65535 := Nat.le_of_lt_succ w.isLt

theorem operandRead_fits (o : Operand) (s : State) : ∀ x ∈ operandRead o s, x.fits s := by
  cases o with
  | reg r => exact List.forall_mem_nil _
  | mem => exact List.forall_mem_singleton.mpr (portRead_fits (Word.toNat_le _))

theorem operandWrite_fits (o : Operand) (v : Byte) (s : State) :
    ∀ x ∈ operandWrite o v s, x.fits s := by
  cases o with
  | reg r => exact List.forall_mem_nil _
  | mem => exact List.forall_mem_singleton.mpr (portWrite_fits (Word.toNat_le _))

theorem pushWrites_fits (o : PushOrder) (hi lo : Byte) (s : State) :
    ∀ x ∈ pushWrites o hi lo s, x.fits s := by
  have hsp := Word.toNat_le s.sp
  have hhigh : (portWrite .stack (s.sp.toNat - 1) hi).fits s := portWrite_fits (by omega)
  have hlow : (portWrite .stack (s.sp.toNat - 2) lo).fits s := portWrite_fits (by omega)
  cases o with
  | listed => exact List.forall_mem_cons.mpr ⟨hhigh, List.forall_mem_singleton.mpr hlow⟩
  | lowerFirst => exact List.forall_mem_cons.mpr ⟨hlow, List.forall_mem_singleton.mpr hhigh⟩

theorem popReads_fits {s : State} (h : s.sp.toNat < 0xFFFE) : ∀ x ∈ popReads s, x.fits s :=
  List.forall_mem_cons.mpr
    ⟨portRead_fits (by omega), List.forall_mem_singleton.mpr (portRead_fits (by omega))⟩

theorem fetchReads_fits {i : Instr} {s : State} (hdef : isUndefined i = false)
    (hplace : outOfBoundsPlace i s = false) : ∀ x ∈ fetchReads i s, x.fits s := by
  have hlast : s.pc.toNat + (i.length - 1) ≤ 65535 := by
    by_contra hlast
    rw [← Bool.not_eq_true, outOfBoundsPlace_iff] at hplace
    exact hplace ⟨hdef, .inl (by omega)⟩
  refine List.forall_mem_cons.mpr
    ⟨portRead_fits (Word.toNat_le _), List.forall_mem_map.mpr fun k hk => ?_⟩
  rw [List.mem_range] at hk
  exact portRead_fits (by omega)

theorem dataAccesses_fit {i : Instr} {s : State} (hplace : outOfBoundsPlace i s = false)
    (o : PushOrder) : ∀ x ∈ dataAccesses o i s, x.fits s := by
  rw [← Bool.not_eq_true] at hplace
  cases i with
  | mov dst src =>
    exact List.forall_mem_append.mpr ⟨operandRead_fits src s, operandWrite_fits dst _ s⟩
  | inr dst | dcr dst =>
    exact List.forall_mem_append.mpr ⟨operandRead_fits dst s, operandWrite_fits dst _ s⟩
  | mvi dst d8 => exact operandWrite_fits dst d8 s
  | add src | ana src | xra src => exact operandRead_fits src s
  | lda a16 | ldax rp => exact List.forall_mem_singleton.mpr (portRead_fits (Word.toNat_le _))
  | sta a16 => exact List.forall_mem_singleton.mpr (portWrite_fits (Word.toNat_le _))
  | push | call => exact pushWrites_fits o _ _ s
  | pop rp =>
    rw [outOfBoundsPlace_pop] at hplace
    exact popReads_fits (by omega)
  | ret =>
    rw [outOfBoundsPlace_ret] at hplace
    exact popReads_fits (by omega)
  | _ => exact List.forall_mem_nil _

/-- After a write only writes to other addresses follow (R41). -/
def PortAccess.before (x y : PortAccess) : Prop := x.dir = .write → y.dir = .write ∧ y.addr ≠ x.addr

/-- Reads may stand in front of any accesses that are in order themselves. -/
theorem pairwise_reads_append {as bs : List PortAccess} (ha : ∀ x ∈ as, x.dir = .read)
    (hb : bs.Pairwise PortAccess.before) : (as ++ bs).Pairwise PortAccess.before := by
  have hread {x : PortAccess} (hx : x ∈ as) (y : PortAccess) : x.before y := fun hw => by
    rw [ha x hx] at hw
    cases hw
  exact List.pairwise_append.mpr
    ⟨List.pairwise_of_forall_mem_list fun x hx y _ => hread hx y, hb, fun x hx y _ => hread hx y⟩

theorem pairwise_reads {as : List PortAccess} (ha : ∀ x ∈ as, x.dir = .read) :
    as.Pairwise PortAccess.before := by
  simpa using pairwise_reads_append ha .nil

theorem pairwise_operandWrite (o : Operand) (v : Byte) (s : State) :
    (operandWrite o v s).Pairwise PortAccess.before := by
  cases o with
  | reg r => exact .nil
  | mem => exact List.pairwise_singleton _ _

theorem pairwise_pushWrites {s : State} (hsp : 2 ≤ s.sp.toNat) (o : PushOrder) (hi lo : Byte) :
    (pushWrites o hi lo s).Pairwise PortAccess.before := by
  have hne : s.sp.toNat - 1 ≠ s.sp.toNat - 2 := by omega
  cases o with
  | listed => exact List.pairwise_pair.mpr fun _ => ⟨rfl, hne.symm⟩
  | lowerFirst => exact List.pairwise_pair.mpr fun _ => ⟨rfl, hne⟩

theorem pairwise_dataAccesses {i : Instr} {s : State} (hplace : outOfBoundsPlace i s = false)
    (o : PushOrder) : (dataAccesses o i s).Pairwise PortAccess.before := by
  rw [← Bool.not_eq_true] at hplace
  cases i with
  | mov dst src => exact pairwise_reads_append (operandRead_dir src s) (pairwise_operandWrite dst _ s)
  | inr dst | dcr dst =>
    exact pairwise_reads_append (operandRead_dir dst s) (pairwise_operandWrite dst _ s)
  | mvi dst d8 => exact pairwise_operandWrite dst d8 s
  | add src | ana src | xra src => exact pairwise_reads (operandRead_dir src s)
  | lda | ldax | sta => exact List.pairwise_singleton _ _
  | push rp =>
    rw [outOfBoundsPlace_push] at hplace
    exact pairwise_pushWrites (by omega) o _ _
  | call a16 =>
    rw [outOfBoundsPlace_call] at hplace
    exact pairwise_pushWrites (by omega) o _ _
  | pop | ret => exact pairwise_reads (popReads_dir s)
  | _ => exact .nil

/-- Settles O28: the fetch reads, then the data and stack accesses, each in range and in order. -/
theorem portAccessesAreInRangeAndReadsComeFirst :
    Obligations.PortAccessesAreInRangeAndReadsComeFirst :=
  fun o i s _ hdef hplace =>
    ⟨List.forall_mem_append.mpr ⟨fetchReads_fits hdef hplace, dataAccesses_fit hplace o⟩,
      pairwise_reads_append (fetchReads_dir i s) (pairwise_dataAccesses hplace o)⟩

/-! ### The frame of memory -/

/-- A write of the port is to one of the instruction's stored addresses. -/
theorem addr_mem_storedAddrs {i : Instr} {s : State} :
    ∀ x ∈ dataAccesses .listed i s, x.dir = .write → x.addr ∈ storedAddrs i s := by
  cases i with
  | mov dst src =>
    cases dst <;> cases src <;>
      simp [dataAccesses, operandRead, operandWrite, portRead, portWrite, storedAddrs]
  | mvi dst d8 | inr dst | dcr dst =>
    cases dst <;> simp [dataAccesses, operandRead, operandWrite, portRead, portWrite, storedAddrs]
  | add src | ana src | xra src =>
    cases src <;> simp [dataAccesses, operandRead, portRead]
  | push | call => simp [dataAccesses, pushWrites, portWrite, storedAddrs]
  | pop | ret => simp [dataAccesses, popReads, portRead]
  | _ => simp [dataAccesses, portRead, portWrite, storedAddrs]

/-- Settles O24: memory after a completed instruction is memory after its accesses, which write to the stored
addresses only. -/
theorem memoryOutsideTheStoredBytesIsKept : Obligations.MemoryOutsideTheStoredBytesIsKept := by
  intro i s t hm h
  rcases exec_cases h with ⟨-, hplace, rfl⟩ | ⟨-, rfl⟩ | ⟨op, -, rfl⟩
  · have hmem : (completed i s).mem = s.mem.afterAccesses (dataAccesses .listed i s) := effect_mem i s
    rw [hmem]
    refine ⟨fun a ha => ?_, fun hnone => Memory.afterAccesses_reads (fun x hx => ?_) s.mem⟩
    · exact Memory.read_afterAccesses hm (fun x hx => (dataAccesses_fit hplace _ x hx).1)
        fun x hx hw heq => ha (heq ▸ addr_mem_storedAddrs x hx hw)
    · cases hdir : x.dir with
      | read => rfl
      | write => exact absurd (addr_mem_storedAddrs x hx hdir) (by simp [hnone])
  · exact ⟨fun _ _ => rfl, fun _ => rfl⟩
  · exact ⟨fun _ _ => rfl, fun _ => rfl⟩

theorem wf_completed_mem {i : Instr} {s : State} (hm : s.mem.wf = true)
    (hplace : outOfBoundsPlace i s = false) : (completed i s).mem.wf = true := by
  have hmem : (completed i s).mem = s.mem.afterAccesses (dataAccesses .listed i s) := effect_mem i s
  rw [hmem]
  exact Memory.wf_afterAccesses hm fun x hx => (dataAccesses_fit hplace _ x hx).1

end Sys2Proof.Machine
end

section
/-! The flags (42_arithmetic_logical.md section 1, 10_state.md section 3): the standard update bit by bit, and the layout of the
flags byte. -/

namespace Sys2Proof.Machine

/-- R100: the parity flag counts the set bits of the byte. -/
theorem evenParity_iff (r : Byte) :
    evenParity r = true ↔ (List.range 8).countP (fun k => r.getLsbD k) % 2 = 0 := by
  have hbit (b : Bool) : b.toNat = if b then 1 else 0 := by cases b <;> rfl
  have hcount : (List.range 8).countP (fun k => r.getLsbD k) =
      (r.getLsbD 7).toNat + (r.getLsbD 6).toNat + (r.getLsbD 5).toNat + (r.getLsbD 4).toNat
        + (r.getLsbD 3).toNat + (r.getLsbD 2).toNat + (r.getLsbD 1).toNat + (r.getLsbD 0).toNat := by
    simp only [show List.range 8 = [0, 1, 2, 3, 4, 5, 6, 7] from rfl, List.countP_cons, List.countP_nil,
      hbit]
    omega
  rw [hcount, evenParity, beq_iff_eq]

/-- R100: bit 7 of a byte is set from 128 on. -/
theorem getLsbD_seven_iff (r : Byte) : r.getLsbD 7 = true ↔ 128 ≤ r.toNat := by
  rw [← BitVec.msb_eq_getLsbD_last (x := r), BitVec.msb_eq_decide, decide_eq_true_eq]

/-- Settles O33: the zero test, bit 7 as a comparison, and the parity as a count. -/
theorem standardFlagUpdateIsZeroSignParity : Obligations.StandardFlagUpdateIsZeroSignParity :=
  fun _ r => ⟨beq_iff_eq, getLsbD_seven_iff r, evenParity_iff r, rfl, rfl⟩

/-- R16: the flags byte, from bit 0 up. -/
theorem Flags.getLsbD_toByte (f : Flags) (k : Nat) :
    f.toByte.getLsbD k = [f.cy, true, f.p, false, f.ac, false, f.z, f.s].getD k false := by
  match k with
  | 0 | 1 | 2 | 3 | 4 | 5 | 6 | 7 => rcases f with ⟨_ | _, _ | _, _ | _, _ | _, _ | _⟩ <;> rfl
  | k + 8 => exact BitVec.getLsbD_of_ge _ _ (by omega)

/-- Only bit 4 of the flags byte tells `ac`. -/
theorem Flags.getLsbD_toByte_ac (f : Flags) (c : Bool) {k : Nat} (hk : k ≠ 4) :
    ({ f with ac := c } : Flags).toByte.getLsbD k = f.toByte.getLsbD k := by
  rw [Flags.getLsbD_toByte, Flags.getLsbD_toByte]
  match k with
  | 4 => exact absurd rfl hk
  | 0 | 1 | 2 | 3 | 5 | 6 | 7 => rfl
  | k + 8 => rfl

/-- Settles O34: the eight bits of `Flags.getLsbD_toByte`, the highest first. -/
theorem flagsByteHasTheStatedLayout : Obligations.FlagsByteHasTheStatedLayout := by
  refine ⟨fun f => ?_, fun b => rfl⟩
  simp only [Flags.getLsbD_toByte]
  rfl

end Sys2Proof.Machine
end

section
/-! The step (40_fetch_decode_step.md, 60_exceptions.md): what is fetched, when a step halts, and that a terminal machine
does not move. -/

namespace Sys2Proof.Machine

/-! ### What is fetched -/

/-- Everything the fetch can do, in terms of the opcode byte at `pc`. -/
theorem fetch_cases (s : State) :
    (65535 < s.pc.toNat + (immKindOf (s.byteAt s.pc)).size ∧ fetch s = .error .outOfBounds) ∨
      ∃ v, fetch s = .ok (assemble (s.byteAt s.pc) v) := by
  rcases Nat.lt_or_ge 65535 (s.pc.toNat + (immKindOf (s.byteAt s.pc)).size) with h | h
  · exact .inl ⟨h, fetch_error h⟩
  · right
    cases hk : immKindOf (s.byteAt s.pc) with
    | none => exact ⟨_, fetch_none hk⟩
    | byte => exact ⟨_, fetch_byte hk (by rwa [hk] at h)⟩
    | word => exact ⟨_, fetch_word hk (by rwa [hk] at h)⟩

/-- Everything a running machine's step can do. -/
theorem step_cases {s : State} (hr : s.running = true) :
    (65535 < s.pc.toNat + (immKindOf (s.byteAt s.pc)).size ∧
        step s = .next (raiseFault .outOfBounds s)) ∨
      ∃ v, step s = exec (assemble (s.byteAt s.pc) v) s := by
  rcases fetch_cases s with ⟨hroom, hf⟩ | ⟨v, hf⟩
  · exact .inl ⟨hroom, step_of_fetch_error hr hf⟩
  · exact .inr ⟨v, step_of_fetch hr hf⟩

/-- The bytes from `pc` on that are below 0x10000 decode to what is fetched. -/
theorem fetch_of_decode {s : State} {n : Nat} {i : Instr} {rest : List Byte}
    (hn : s.pc.toNat + n ≤ 65536)
    (h : decode ((List.range n).map fun k => s.mem.read (s.pc.toNat + k)) = .ok (i, rest)) :
    fetch s = .ok i := by
  match n with
  | 0 => cases h
  | n + 1 =>
    have hbytes : (List.range (n + 1)).map (fun k => s.mem.read (s.pc.toNat + k)) =
        s.byteAt s.pc :: (List.range n).map fun k => s.mem.read (s.pc.toNat + (k + 1)) := by
      rw [List.range_succ_eq_map, List.map_cons, List.map_map]
      rfl
    rw [hbytes] at h
    cases hk : immKindOf (s.byteAt s.pc) with
    | none =>
      rw [decode_none hk] at h
      cases h
      exact fetch_none hk
    | byte =>
      match n with
      | 0 => simp [decode, hk] at h
      | n + 1 =>
        rw [List.range_succ_eq_map, List.map_cons, decode_byte hk] at h
        cases h
        exact fetch_byte hk (by omega)
    | word =>
      match n with
      | 0 | 1 => simp [decode, hk, List.range_succ_eq_map] at h
      | n + 2 =>
        rw [List.range_succ_eq_map, List.range_succ_eq_map, List.map_cons, List.map_cons, List.map_map,
          List.map_cons, decode_word hk] at h
        cases h
        exact fetch_word hk (by omega)

/-- Settles O10: the bytes decode to what is fetched, and a running machine executes it. -/
theorem stepRunsTheDecodedInstruction : Obligations.StepRunsTheDecodedInstruction :=
  fun s _ _ _ hfault hhalted hn h =>
    step_of_fetch (s.running_iff.mpr ⟨hfault, hhalted⟩) (fetch_of_decode hn h)

/-- Settles O11: the fetch raises, and a raising fetch takes its fault. -/
theorem stepWithAMissingOperandByteFaults : Obligations.StepWithAMissingOperandByteFaults :=
  fun s hfault hhalted hroom =>
    step_of_fetch_error (s.running_iff.mpr ⟨hfault, hhalted⟩) (fetch_error hroom)

/-- Settles O12: an undefined byte value is fetched without an operand, whatever `pc` is. -/
theorem undefinedByteTakesItsFault : Obligations.UndefinedByteTakesItsFault := by
  refine ⟨fun op s => rfl, fun s hfault hhalted hmem => ?_⟩
  have hfetch := fetch_none (immKindOf_undefined hmem)
  rw [assemble_undefined hmem] at hfetch
  exact step_of_fetch (s.running_iff.mpr ⟨hfault, hhalted⟩) hfetch

/-! ### A terminal machine -/

theorem State.not_running_of_terminal {s : State} (h : s.terminal) : s.running = false := by
  rw [← Bool.not_eq_true, State.running_iff]
  rintro ⟨hfault, hhalted⟩
  rcases h with h | h
  · exact h hfault
  · rw [hhalted] at h
    cases h

/-- Settles O13: a terminal machine's step stays where it is, so by induction any number of them does. -/
theorem terminalMachineNeverMoves : Obligations.TerminalMachineNeverMoves := by
  intro s k hterm
  have hstep : step s = .next s := step_of_not_running (State.not_running_of_terminal hterm)
  have hrun : Sys2Proof.core.run k s = .next s := by
    induction k with
    | zero => rfl
    | succ k ih => exact (run_succ k hstep).trans ih
  refine ⟨hrun, hstep, fun f hf => by simp only [reportOf, hf], fun hf => ?_⟩
  have hhalted : s.halted = true := hterm.resolve_left (not_not_intro hf)
  simp only [reportOf, hf, hhalted]

/-! ### Halting -/

/-- Every byte value but 0x76 assembles to another instruction than HLT (R57). -/
theorem assemble_eq_hlt_iff (op : Byte) (v : Word) : assemble op v = .hlt ↔ op = 0x76 := by
  constructor
  · intro h
    rw [← opcode_assemble op v, h]
    rfl
  · rintro rfl
    rfl

theorem step_hlt {s : State} (hr : s.running = true) (h : s.byteAt s.pc = 0x76) :
    step s = exec .hlt s :=
  step_of_fetch hr (by rw [fetch_none (by rw [h]; rfl), (assemble_eq_hlt_iff _ 0).mpr h])

/-- A step of a running machine halts it exactly on a HLT whose advance of `pc` passes. -/
theorem step_halted_iff {s t : State} (hr : s.running = true) (h : step s = .next t) :
    t.halted = true ↔ s.byteAt s.pc = 0x76 ∧ s.pc ≠ 0xFFFF := by
  have hhalted := (s.running_iff.mp hr).2
  by_cases hop : s.byteAt s.pc = 0x76
  · rw [step_hlt hr hop, exec_hlt] at h
    by_cases hpc : s.pc = 0xFFFF
    · rw [sequential_one_fault _ hpc] at h
      cases h
      exact iff_of_false (by simp [hhalted]) fun hhlt => hhlt.2 hpc
    · rw [sequential_one_next _ (by bv_omega)] at h
      cases h
      exact iff_of_true rfl ⟨hop, hpc⟩
  · have hkept : t.halted = s.halted := by
      rcases step_cases hr with ⟨-, hstep⟩ | ⟨v, hstep⟩
      · rw [hstep] at h
        cases h
        rfl
      · exact exec_halted (mt (assemble_eq_hlt_iff _ v).mp hop) (hstep ▸ h)
    exact iff_of_false (by simp [hkept, hhalted]) fun hhlt => hop hhlt.1

/-- A step that halts the machine has raised no fault. -/
theorem step_fault_of_halted {s t : State} (hr : s.running = true) (h : step s = .next t)
    (ht : t.halted = true) : t.fault = none := by
  obtain ⟨hfault, hhalted⟩ := s.running_iff.mp hr
  have hmove := step_keepsLatchOrRaises s
  rw [h] at hmove
  cases hmove with
  | keeps hkept => rw [hkept, hfault]
  | raises f => rw [raiseFault_halted, hhalted] at ht; cases ht

theorem reportOf_halted_iff (s t : State) :
    reportOf s t = .halted ↔ s.running = true ∧ t.fault = none ∧ t.halted = true := by
  rw [State.running_iff]
  unfold reportOf
  split
  case h_1 f hsf => simp [hsf]
  case h_2 hsf hsh => simp [hsh]
  case h_3 f hsf hsh htf => simp [htf]
  case h_4 hsf hsh htf hth => simp [hsf, hsh, htf, hth]
  case h_5 hsf hsh htf hth => simp [hth]

theorem step_next (s : State) : ∃ t, step s = .next t := by
  have hmove := step_keepsLatchOrRaises s
  cases hstep : step s with
  | next t => exact ⟨t, rfl⟩
  | fault | refused => rw [hstep] at hmove; cases hmove

/-- Settles O14: the report and the new state both come from `step_halted_iff`. -/
theorem stepAnswersAndHaltsExactlyOnHlt : Obligations.StepAnswersAndHaltsExactlyOnHlt := by
  intro s
  obtain ⟨t, hstep⟩ := step_next s
  refine ⟨t, hstep, ?_, fun hfault hhalted =>
    step_halted_iff (s.running_iff.mpr ⟨hfault, hhalted⟩) hstep⟩
  rw [reportOf_halted_iff]
  constructor
  · rintro ⟨hr, -, ht⟩
    obtain ⟨hfault, hhalted⟩ := s.running_iff.mp hr
    exact ⟨hfault, hhalted, (step_halted_iff hr hstep).mp ht⟩
  · rintro ⟨hfault, hhalted, hhlt⟩
    have hr := s.running_iff.mpr ⟨hfault, hhalted⟩
    have ht := (step_halted_iff hr hstep).mpr hhlt
    exact ⟨hr, step_fault_of_halted hr hstep ht, ht⟩

/-! ### A store before the next fetch -/

theorem run_two {s t u : State} (h : step s = .next t) (h' : step t = .next u) :
    Sys2Proof.core.run 2 s = .next u :=
  (run_succ (M := Sys2Proof.core) 1 h).trans (run_succ (M := Sys2Proof.core) 0 h')

/-- Settles O30: the first step is the STA, whose byte the second one fetches as HLT. -/
theorem storeIsSeenByTheNextFetch : Obligations.StoreIsSeenByTheNextFetch := by
  intro s hm hfault hhalted hpc hdecode ha
  have hsta : step s = .next { s.setByte (s.pc + 3) s.regs.a with pc := s.pc + 3 } :=
    (stepRunsTheDecodedInstruction s 3 _ _ hfault hhalted (by omega) hdecode).trans
      (sequential_next _ (by omega))
  have hbyte : (s.mem.write (s.pc + 3).toNat s.regs.a).read (s.pc + 3).toNat = 0x76 := by
    rw [Memory.read_write_same hm, ha]
  have hnext : (s.pc + 3).toNat ≤ 0xFFFE := by bv_omega
  have hr : State.running { s.setByte (s.pc + 3) s.regs.a with pc := s.pc + 3 } = true :=
    (State.running_iff _).mpr ⟨hfault, hhalted⟩
  have hhlt := (step_hlt hr hbyte).trans (sequential_one_next _ hnext)
  exact ⟨_, run_two hsta hhlt, rfl, hfault, BitVec.add_assoc s.pc 3 1⟩

end Sys2Proof.Machine
end

section
/-! The invariant of a run (10_state.md, 43_stack_control.md section 4, 60_exceptions.md section 1): each of the ways a running
machine's step can end keeps it. -/

namespace Sys2Proof.Machine

/-- Settles O19: memory is empty, and neither `halted` nor the latch is set. -/
theorem theInvariantHoldsAtReset : Obligations.TheInvariantHoldsAtReset where
  memory := rfl
  halted := nofun
  undefined := nofun
  outOfBounds := nofun

/-! ### The place of a fault, seen from the opcode byte -/

theorem outOfBoundsPlace_build {r : OpRow} (hr : r ∈ opTable) (op : Byte) (v : Word) (s : State) :
    outOfBoundsPlace (r.build op v) s = outOfBoundsPlace (r.build op 0) s := by
  fin_cases hr <;> rfl

/-- The operand plays no part in the places of R152. -/
theorem outOfBoundsPlace_assemble (op : Byte) (v : Word) (s : State) :
    outOfBoundsPlace (assemble op v) s = outOfBoundsPlace (assemble op 0) s := by
  simp only [assemble]
  cases hrow : findRow op with
  | some r => exact outOfBoundsPlace_build (List.mem_of_find?_eq_some hrow) op v s
  | none => rfl

theorem length_of_isUndefined {i : Instr} (h : isUndefined i = true) : i.length = 1 := by
  cases i with
  | undefined op => rfl
  | _ => cases h

/-- R33, R152: a missing operand byte is the first place of the table. -/
theorem outOfBoundsPlace_of_missing_operand {s : State}
    (h : 65535 < s.pc.toNat + (immKindOf (s.byteAt s.pc)).size) :
    outOfBoundsPlace (assemble (s.byteAt s.pc) 0) s = true := by
  have hlen : (assemble (s.byteAt s.pc) 0).length = (immKindOf (s.byteAt s.pc)).size + 1 := by
    rw [Instr.length, encode_assemble, List.length_cons, ImmKind.length_bytes]
  have hpc := Word.toNat_le s.pc
  have hdef : isUndefined (assemble (s.byteAt s.pc) 0) = false := by
    by_contra hundef
    have hone : (assemble (s.byteAt s.pc) 0).length = 1 :=
      length_of_isUndefined (by simpa using hundef)
    omega
  exact (outOfBoundsPlace_iff _ s).mpr ⟨hdef, .inl (by omega)⟩

/-- An opcode byte that assembles to an undefined byte value is that value, and listed. -/
theorem undefined_of_assemble {op op' : Byte} {v : Word} (h : assemble op v = .undefined op') :
    op = op' ∧ op' ∈ undefinedOpcodes := by
  have hop := opcode_assemble op v
  have hwf := wellFormed_assemble op v
  rw [h] at hop hwf
  exact ⟨hop.symm, (wellFormed_undefined_iff op').mp hwf⟩

/-! ### Each end of a step -/

section
variable {s : State} (hm : s.mem.wf = true) (hhalted : s.halted = false)
include hm hhalted

theorem inv_raiseFault_outOfBounds
    (hplace : outOfBoundsPlace (assemble (s.byteAt s.pc) 0) s = true) :
    (raiseFault .outOfBounds s).Inv where
  memory := hm
  halted h := absurd h (by simp [hhalted])
  undefined := nofun
  outOfBounds _ := (outOfBoundsPlace_congr _ rfl rfl rfl).trans hplace

theorem inv_raiseFault_undefined {op : Byte} {v : Word}
    (h : assemble (s.byteAt s.pc) v = .undefined op) :
    (raiseFault (.unimplementedOpcode op) s).Inv where
  memory := hm
  halted h' := absurd h' (by simp [hhalted])
  undefined op' h' := by
    cases h'
    exact undefined_of_assemble h
  outOfBounds := nofun

/-- R140: only a HLT halts, and it leaves `pc` one past itself without a wrap. -/
theorem inv_completed (hfault : s.fault = none) {v : Word}
    (hplace : outOfBoundsPlace (assemble (s.byteAt s.pc) v) s = false) :
    (completed (assemble (s.byteAt s.pc) v) s).Inv := by
  have hlatch : (completed (assemble (s.byteAt s.pc) v) s).fault = none :=
    (effect_fault _ s).trans hfault
  refine ⟨wf_completed_mem hm hplace, fun h => ⟨hlatch, ?_⟩, fun op h => ?_, fun h => ?_⟩
  · have hhlt : assemble (s.byteAt s.pc) v = .hlt := by
      by_contra hne
      have hkept : s.halted = true := (effect_halted hne s).symm.trans h
      rw [hhalted] at hkept
      cases hkept
    have hop := (assemble_eq_hlt_iff _ v).mp hhlt
    rw [hhlt] at hplace ⊢
    have hroom : s.pc.toNat + 1 ≤ 65535 := room_of_not_place rfl hplace rfl
    have hpc : (completed .hlt s).pc = s.pc + 1 := rfl
    refine ⟨by rw [hpc]; bv_omega, ?_⟩
    rw [hpc, BitVec.add_sub_cancel]
    exact hop
  · rw [hlatch] at h
    cases h
  · rw [hlatch] at h
    cases h

end

/-- Settles O18: a step of a terminal machine stays, a missing operand byte is a place of the table, and an
instruction ends in one of the ways of `exec_cases`. -/
theorem everyStepKeepsTheInvariant : Obligations.EveryStepKeepsTheInvariant := by
  intro s t hinv h
  cases hr : s.running with
  | false =>
    rw [step_of_not_running hr] at h
    cases h
    exact hinv
  | true =>
    obtain ⟨hfault, hhalted⟩ := s.running_iff.mp hr
    rcases step_cases hr with ⟨hmissing, hstep⟩ | ⟨v, hstep⟩
    · rw [hstep] at h
      cases h
      exact inv_raiseFault_outOfBounds hinv.memory hhalted
        (outOfBoundsPlace_of_missing_operand hmissing)
    · rcases exec_cases (hstep ▸ h) with ⟨-, hplace, rfl⟩ | ⟨hplace, rfl⟩ | ⟨op, hop, rfl⟩
      · exact inv_completed hinv.memory hhalted hfault hplace
      · rw [outOfBoundsPlace_assemble] at hplace
        exact inv_raiseFault_outOfBounds hinv.memory hhalted hplace
      · exact inv_raiseFault_undefined hinv.memory hhalted hop

end Sys2Proof.Machine
end

section
/-! Where the free bit goes (42_arithmetic_logical.md section 1, the spec's decision D7): two states that differ in `ac`
and the draws to come fetch the same instruction, and only PUSH PSW does something else on the one than on the
other. -/

namespace Sys2Proof.Machine

/-- The state with another `ac` and another count of draws. -/
def State.withDraw (s : State) (c : Bool) (n : Nat) : State :=
  { s with flags := { s.flags with ac := c }, draws := n }

theorem withDraw_of_sameButAc {s t : State} (h : sameButAc s t) : ∃ c n, t = s.withDraw c n :=
  ⟨_, _, h⟩

/-- No instruction but PUSH PSW reads `ac`: the effect differs in `ac` and the draws at most. -/
theorem effect_withDraw {i : Instr} (h : i ≠ .push .psw) (s : State) (c : Bool) (n : Nat) :
    sameButAc (effect i s) (effect i (s.withDraw c n)) := by
  cases i with
  | mov dst _ | mvi dst _ | inr dst | dcr dst => cases dst <;> rfl
  | lxi rp _ | inx rp | pop rp => cases rp <;> rfl
  | push rp =>
    cases rp with
    | psw => exact absurd rfl h
    | _ => rfl
  | _ => rfl

theorem nextPc_withDraw (i : Instr) (s : State) (c : Bool) (n : Nat) :
    nextPc i (s.withDraw c n) = nextPc i s := by
  cases i <;> rfl

theorem completed_withDraw {i : Instr} (h : i ≠ .push .psw) (s : State) (c : Bool) (n : Nat) :
    sameButAc (completed i s) (completed i (s.withDraw c n)) := by
  rw [completed, completed, nextPc_withDraw]
  exact congrArg (fun t : State => { t with pc := nextPc i s }) (effect_withDraw h s c n)

theorem outOfBoundsPlace_withDraw (i : Instr) (s : State) (c : Bool) (n : Nat) :
    outOfBoundsPlace i (s.withDraw c n) = outOfBoundsPlace i s :=
  outOfBoundsPlace_congr i rfl rfl rfl

/-- Two states that differ in `ac` and the draws end an instruction in the same way; where the new states differ
in more, both have completed a PUSH PSW. -/
theorem exec_withDraw {i : Instr} {s s' : State} (h : exec i s = .next s') (c : Bool) (n : Nat) :
    ∃ t', exec i (s.withDraw c n) = .next t' ∧
      (sameButAc s' t' ∨ i = .push .psw ∧ s' = completed i s ∧ t' = completed i (s.withDraw c n)) := by
  rcases exec_cases h with ⟨hdef, hplace, rfl⟩ | ⟨hplace, rfl⟩ | ⟨op, rfl, rfl⟩
  · refine ⟨_, exec_completes hdef ((outOfBoundsPlace_withDraw i s c n).trans hplace), ?_⟩
    by_cases hpsw : i = .push .psw
    · exact .inr ⟨hpsw, rfl, rfl⟩
    · exact .inl (completed_withDraw hpsw s c n)
  · exact ⟨_, exec_place ((outOfBoundsPlace_withDraw i s c n).trans hplace), .inl rfl⟩
  · exact ⟨_, rfl, .inl rfl⟩

/-! ### PUSH PSW -/

/-- What a push stores: the high byte at `sp - 1`, and the low one at `sp - 2`, written last. -/
theorem read_pushed {s : State} (hm : s.mem.wf = true) (hi lo : Byte) (a : Nat) :
    (pushed hi lo s).mem.read a =
      if a = s.sp.toNat - 2 then lo else (s.mem.write (s.sp.toNat - 1) hi).read a :=
  Memory.read_write (Memory.wf_write hm (Nat.lt_of_le_of_lt (Nat.sub_le _ _) s.sp.isLt) hi) _ _ _

theorem completed_push_psw_withDraw {s : State} (hm : s.mem.wf = true) (c : Bool) (n : Nat) :
    let s' := completed (.push .psw) s
    let t' := completed (.push .psw) (s.withDraw c n)
    sameButAc s' { t' with mem := s'.mem } ∧
      (∀ a : Nat, a ≠ s.sp.toNat - 2 → t'.mem.read a = s'.mem.read a) ∧
      (∀ k : Nat, k ≠ 4 → (t'.mem.read (s.sp.toNat - 2)).getLsbD k =
        (s'.mem.read (s.sp.toNat - 2)).getLsbD k) := by
  have hs (a : Nat) := read_pushed hm s.regs.a s.flags.toByte a
  have ht (a : Nat) := read_pushed (s := s.withDraw c n) hm s.regs.a (s.withDraw c n).flags.toByte a
  refine ⟨rfl, fun a ha => ?_, fun k hk => ?_⟩
  · exact (ht a).trans ((if_neg ha).trans ((hs a).trans (if_neg ha)).symm)
  · have htbyte := (ht (s.sp.toNat - 2)).trans (if_pos rfl)
    have hsbyte := (hs (s.sp.toNat - 2)).trans (if_pos rfl)
    exact (congrArg (·.getLsbD k) htbyte).trans
      ((Flags.getLsbD_toByte_ac s.flags c hk).trans (congrArg (·.getLsbD k) hsbyte).symm)

/-- Settles O20: the two states fetch the same, so `exec_withDraw` tells what they do; the opcode byte of the
exception is that of PUSH PSW. -/
theorem drawReachesOnlyAcAndThePushedPsw : Obligations.DrawReachesOnlyAcAndThePushedPsw := by
  intro s t s' hm hsame h
  obtain ⟨c, n, rfl⟩ := withDraw_of_sameButAc hsame
  have hfetch : fetch (s.withDraw c n) = fetch s := rfl
  cases hr : s.running with
  | false =>
    rw [step_of_not_running hr] at h
    cases h
    exact ⟨_, step_of_not_running hr, .inl hsame⟩
  | true =>
    rcases fetch_cases s with ⟨-, hf⟩ | ⟨v, hf⟩
    · rw [step_of_fetch_error hr hf] at h
      cases h
      exact ⟨_, step_of_fetch_error hr (hfetch.trans hf), .inl rfl⟩
    · rw [step_of_fetch hr hf] at h
      obtain ⟨t', hexec, hcase⟩ := exec_withDraw h c n
      refine ⟨t', (step_of_fetch (s := s.withDraw c n) hr (hfetch.trans hf)).trans hexec, hcase.imp_right ?_⟩
      rintro ⟨hpsw, rfl, rfl⟩
      have hop : s.byteAt s.pc = 0xF5 := by
        rw [← opcode_assemble (s.byteAt s.pc) v, hpsw]
        rfl
      rw [hpsw]
      exact ⟨hop, completed_push_psw_withDraw hm c n⟩

end Sys2Proof.Machine
end

section
/-! The host's moves (70_reset_and_hazards.md): reset from any session, and the session in which a load is refused. -/

namespace Sys2Proof.Machine

/-- Settles O2: the reset move, with `State.toReset` written out. -/
theorem resetFromAnyStateIsTheResetState : Obligations.ResetFromAnyStateIsTheResetState :=
  fun _ => rfl

theorem hostMove_load_refused {h : Session} (hload : h.loadable = false) (bytes : List Byte) :
    hostMove (.load bytes) h = (h, .refused .loadNotAfterReset) := by
  simp [hostMove, hload]

/-- Whatever a step answers, it ends the time in which a load is accepted (R172). -/
theorem hostMove_step_loadable (h : Session) : (hostMove .step h).1.loadable = false := by
  rw [hostMove]
  cases step h.machine <;> rfl

/-- R172: a load that succeeds ends that time too. -/
theorem loadable_of_load_done {h : Session} {image : List Byte}
    (hdone : (hostMove (.load image) h).2 = .done) :
    (hostMove (.load image) h).1.loadable = false := by
  cases hload : h.loadable with
  | false =>
    rw [hostMove_load_refused hload]
    exact hload
  | true =>
    by_cases hlen : image.length ≤ 65536
    · rw [hostMove_load_done hload hlen]
    · rw [hostMove_load_tooLong hload (Nat.not_le.mp hlen)] at hdone
      cases hdone

/-- R172: only reset makes a session loadable. -/
theorem loadable_of_ne_reset {h : Session} (hload : h.loadable = false) {m : HostMove}
    (hm : m ≠ .reset) : (hostMove m h).1.loadable = false := by
  cases m with
  | reset => exact absurd rfl hm
  | load bytes => rw [hostMove_load_refused hload]; exact hload
  | step => exact hostMove_step_loadable h
  | inspect => exact hload

/-- Settles O4: the laws of each move; inspection answers the session it is given. -/
theorem loadIsRefusedOutsideTheResetState : Obligations.LoadIsRefusedOutsideTheResetState := by
  intro h h' m r bytes hmove
  obtain ⟨rfl, rfl⟩ : (hostMove m h).1 = h' ∧ (hostMove m h).2 = r := Prod.mk.inj hmove
  refine ⟨?_, fun hload => hostMove_load_refused hload bytes,
    fun hload hm => loadable_of_ne_reset hload hm, ?_⟩
  · rintro (rfl | ⟨⟨image, rfl⟩, hdone⟩)
    · exact hostMove_step_loadable h
    · exact loadable_of_load_done hdone
  · rintro rfl
    exact ⟨rfl, rfl⟩

end Sys2Proof.Machine
end
